-- ==== Sys2Proof/Word.lean ====
section
/-! DEFINITION. The register word and the byte of the register window. -/

namespace Sys2Proof

/-- A 64-bit word: the content of every register (R9, R20) and a binary64 bit pattern (R63). -/
abbrev Word := BitVec 64

/-- A byte of a listing (R70) or a byte lane of a register (R43). -/
abbrev Byte := BitVec 8

/-- The byte offset of an access within the 128-byte window (R40), the `off[6:0]` of R70. -/
abbrev Offset := BitVec 7

end Sys2Proof
end

