-- ==== Sys2Proof/Syntax.lean ====
section
/-! DEFINITION. The instructions of spec/opcode_table.json, the bus accesses they stand for, and what
can arrive at BQD's port. -/

namespace Sys2Proof

/-- The two encoding spaces of spec/opcode_table.json: the command word written to CMD (R60), and the
listing descriptor of a bus access (R70). -/
inductive Format where
  /-- A 64-bit command word (R60, R67). -/
  | cmdw
  /-- A descriptor byte, and a 64-bit data word after it for a write (R70). -/
  | bus8
  deriving DecidableEq, Repr

/-- One constructor per row of spec/opcode_table.json. -/
inductive Instr where
  /-- DESIGN.PK: the peaking design (R110). Its operands and destinations are implicit (R62). -/
  | designPk
  /-- DESIGN.LP: the low-pass design (R120). Its operands and destinations are implicit (R62). -/
  | designLp
  /-- RD: an 8-byte read at byte offset `off` of the window (R44). -/
  | rd (off : Offset)
  /-- WR: an 8-byte write of `data` at byte offset `off` of the window (R45). -/
  | wr (off : Offset) (data : Word)
  deriving DecidableEq, Repr

/-- The encoding space an instruction belongs to. -/
def Instr.format : Instr → Format
  | .designPk => .cmdw
  | .designLp => .cmdw
  | .rd _ => .bus8
  | .wr _ _ => .bus8

/-- The two commands, the values of `kind` (R2). -/
inductive Command where
  | peaking
  | lowPass
  deriving DecidableEq, Repr

/-- The instruction a command is. -/
def Command.instr : Command → Instr
  | .peaking => .designPk
  | .lowPass => .designLp

/-- An access as the platform's bus delivers it to the port (R13, R42): its direction, its byte offset
from `BQD_BASE`, its width in bytes, and, for a write, its data. -/
structure Access where
  /-- true for a write, false for a read -/
  isWrite : Bool
  off : Offset
  size : Nat
  data : Word
  deriving DecidableEq, Repr

/-- What can arrive at the port. -/
inductive PortEvent where
  /-- A bus access of any width at any offset of the window (R42, R44, R45). -/
  | access (a : Access)
  /-- The admitted 8-byte write of the word `v` to CMD, given as the command word itself (R60). -/
  | command (v : Word)
  /-- A reset by the platform (R180). It lies wholly between two steps (R182). -/
  | reset
  deriving DecidableEq, Repr

end Sys2Proof
end

