-- ==== Sys2Proof/WellFormed.lean ====
section
/-! DEFINITION. Which instruction terms are instructions of the opcode table. -/

namespace Sys2Proof

/-- An offset is aligned when its bits [2:0] are 0 (R42, R70). -/
def Offset.aligned (off : Offset) : Bool := off.toNat % 8 == 0

/-- The rows RD and WR have bits [2:0] fixed at 0 (spec/opcode_table.json): a descriptor with
other low bits names a refused access and no instruction (R70). Every other term is well-formed. -/
def Instr.wf : Instr → Bool
  | .designPk => true
  | .designLp => true
  | .rd off => Offset.aligned off
  | .wr off _ => Offset.aligned off

end Sys2Proof
end

