-- ==== Sys2Proof/Decode.lean ====
section
/-! DEFINITION. Decoding: command words (R60, R61), bus accesses (R42) and the byte listings of R70,
total on any bytes and rejecting by name; then the encoder. -/

namespace Sys2Proof

/-- Why a command word is illegal (R61). -/
inductive IllegalWord where
  /-- Bits [63:2] are not all 0: RESERVED_BITS. -/
  | reservedBits
  /-- KIND is 2 or 3: ILLEGAL_KIND. -/
  | illegalKind
  deriving DecidableEq, Repr

/-- Why some bits are no instruction of the opcode table. -/
inductive DecodeError where
  /-- The bytes end before the instruction does. -/
  | truncated
  /-- The access is not 8 bytes wide (R42). -/
  | badWidth
  /-- The offset of the access is not a multiple of 8 (R42, R70). -/
  | misaligned
  /-- The command word is illegal (R61). -/
  | illegal (why : IllegalWord)
  deriving DecidableEq, Repr

/-- The `Decode` of R61. The reserved bits are tested before KIND. -/
def decodeWord (v : Word) : Except IllegalWord Command :=
  if v.extractLsb' 2 62 ≠ 0 then .error .reservedBits
  else if v.extractLsb' 0 2 = 0 then .ok .peaking
  else if v.extractLsb' 0 2 = 1 then .ok .lowPass
  else .error .illegalKind

/-- The instruction a command word is (R66). -/
def decodeCommand (v : Word) : Except DecodeError Instr :=
  match decodeWord v with
  | .ok c => .ok c.instr
  | .error why => .error (.illegal why)

/-- An access is RD or WR when it is 8 bytes wide and aligned, and nothing otherwise (R42). -/
def decodeAccess (a : Access) : Except DecodeError Instr :=
  if a.size ≠ 8 then .error .badWidth
  else if !Offset.aligned a.off then .error .misaligned
  else if a.isWrite then .ok (.wr a.off a.data)
  else .ok (.rd a.off)

/-! ### Words as bytes -/

/-- The number whose base-256 digits are the bytes, the least significant first. -/
def natOfBytes : List Byte → Nat
  | [] => 0
  | b :: bs => b.toNat + 256 * natOfBytes bs

/-- The `k` low base-256 digits of a number, the least significant first. -/
def bytesOfNat : Nat → Nat → List Byte
  | 0, _ => []
  | k + 1, n => BitVec.ofNat 8 n :: bytesOfNat k (n / 256)

/-- The eight bytes of a word, byte k being bits [8k+7:8k] (R43). -/
def littleEndian (v : Word) : List Byte := bytesOfNat 8 v.toNat

/-- The word whose byte k is bits [8k+7:8k] (R43). -/
def ofLittleEndian (bs : List Byte) : Word := BitVec.ofNat 64 (natOfBytes bs)

/-! ### Listings (R70) -/

/-- The first access of a listing and the bytes after it. The descriptor byte is `W :: off[6:0]`.
The data word of a write follows with its most significant byte first, as R70's examples print it. -/
def readListing : List Byte → Option (Access × List Byte)
  | [] => none
  | d :: rest =>
    let off := d.setWidth 7
    if d.msb then
      if rest.length < 8 then none
      else some (⟨true, off, 8, ofLittleEndian (rest.take 8).reverse⟩, rest.drop 8)
    else some (⟨false, off, 8, 0⟩, rest)

/-- The decoder: the first instruction of a byte string in the given encoding space, and the bytes
after it. A command word stands in the byte order of the register window (R43). -/
def decode (fmt : Format) (bytes : List Byte) : Except DecodeError (Instr × List Byte) :=
  match fmt with
  | .cmdw =>
    if bytes.length < 8 then .error .truncated
    else (decodeCommand (ofLittleEndian (bytes.take 8))).map (·, bytes.drop 8)
  | .bus8 =>
    match readListing bytes with
    | none => .error .truncated
    | some (a, rest) => (decodeAccess a).map (·, rest)

/-- The bytes of an opcode-table row's bits, bit 0 the least significant bit of the row's first word
and the bits from `nbits` on zero. A row of 64 bits is a command word; a shorter one is a descriptor
byte, with its data word from bit 8 on. -/
def tableBytes (nbits w : Nat) : Format × List Byte :=
  let v := w % 2 ^ nbits
  if nbits = 64 then (.cmdw, bytesOfNat 8 v)
  else (.bus8, BitVec.ofNat 8 v :: (bytesOfNat 8 (v / 256)).reverse)

/-- The instruction the decoder reads from the bits of an opcode-table row. -/
def decodeTableWord (nbits w : Nat) : Option Instr :=
  match decode (tableBytes nbits w).1 (tableBytes nbits w).2 with
  | .ok (i, _) => some i
  | .error _ => none

/-- The accesses of a whole listing, in order, or none where its last access is cut short. The first
argument bounds the number of accesses. -/
def readProgram : Nat → List Byte → Option (List Access)
  | _, [] => some []
  | 0, _ :: _ => none
  | fuel + 1, bytes =>
    match readListing bytes with
    | none => none
    | some (a, rest) => (readProgram fuel rest).map (a :: ·)

/-! ### The encoder -/


/-- The descriptor byte `W :: off[6:0]` of R70. -/
def descriptor (isWrite : Bool) (off : Offset) : Byte := BitVec.ofBool isWrite ++ off

/-- The bytes of an instruction in its own encoding space (R60, R70). -/
def encode : Instr → List Byte
  | .designPk => littleEndian 0x0000000000000000
  | .designLp => littleEndian 0x0000000000000001
  | .rd off => [descriptor false off]
  | .wr off data => descriptor true off :: (littleEndian data).reverse

end Sys2Proof
end

