-- ==== Sys2Proof/Machine/Flags.lean ====
section
/-! DEFINITION. The STATUS word (R27, R65) with its codes and causes (R141, R142). BQD has no other
flags (R30). -/

namespace Sys2Proof.Machine

/-- STATUS.CODE (R141). -/
inductive Code where
  | ok
  | domainError
  | configurationError
  | illegalCommand
  deriving DecidableEq, Repr

/-- STATUS.CAUSE (R142). -/
inductive Cause where
  | none
  | illegalKind
  | reservedBits
  | fsNotPositive
  | fsNotFinite
  | freqOutOfRange
  | qNotPositive
  | qNotFinite
  | resultNotFinite
  deriving DecidableEq, Repr

/-- CODE[1:0] (R141). -/
def codeBits : Code → BitVec 2
  | .ok => 0
  | .domainError => 1
  | .configurationError => 2
  | .illegalCommand => 3

/-- CAUSE[3:0] (R142). -/
def causeBits : Cause → BitVec 4
  | .none => 0
  | .illegalKind => 1
  | .reservedBits => 2
  | .fsNotPositive => 3
  | .fsNotFinite => 4
  | .freqOutOfRange => 5
  | .qNotPositive => 6
  | .qNotFinite => 7
  | .resultNotFinite => 8

/-- The one CODE each CAUSE has (R142). -/
def causeCode : Cause → Code
  | .none => .ok
  | .illegalKind => .illegalCommand
  | .reservedBits => .illegalCommand
  | .fsNotPositive => .configurationError
  | .fsNotFinite => .configurationError
  | .freqOutOfRange => .domainError
  | .qNotPositive => .domainError
  | .qNotFinite => .domainError
  | .resultNotFinite => .domainError

/-- `zext_64(VALID :: CAUSE[3:0] :: 0b00 :: CODE[1:0])` (R65). -/
def statusWord (valid : Bool) (cause : Cause) (code : Code) : Word :=
  ((BitVec.ofBool valid ++ causeBits cause ++ (0 : BitVec 2) ++ codeBits code : BitVec 9)).setWidth 64

/-- STATUS.CODE of a status word (R27). -/
def codeField (w : Word) : BitVec 2 := w.extractLsb' 0 2

/-- STATUS.CAUSE of a status word (R27). -/
def causeField (w : Word) : BitVec 4 := w.extractLsb' 4 4

/-- STATUS.VALID of a status word (R27). -/
def validField (w : Word) : Bool := w.getLsbD 8

end Sys2Proof.Machine
end

