-- ==== Sys2Proof/Machine/Float.lean ====
section
/-! DEFINITION. IEEE 754 binary64 on its bit patterns (R12, R63, R99). A binary64 value IS its 64-bit
pattern here (R11: `f64` and `bits` are exact and total), so every value is representable by
construction. Every finite value is an integer multiple of 2^-1074, which makes exact arithmetic
arithmetic on integers: an operation computes exactly and rounds once. -/

namespace Sys2Proof.Machine

/-! ### Layout and classes (R63) -/

/-- The sign: bit 63. -/
def signOf (x : Word) : Bool := x.msb

/-- Bits [62:0], exponent and fraction together: the magnitude's rank among all magnitudes. -/
def magOf (x : Word) : Nat := x.toNat % 2 ^ 63

/-- The biased exponent e: bits [62:52]. -/
def expOf (x : Word) : Nat := magOf x / 2 ^ 52

/-- The fraction f: bits [51:0]. -/
def fracOf (x : Word) : Nat := magOf x % 2 ^ 52

/-- The magnitude bits of an infinity: e = 2047 and f = 0. -/
def infMag : Nat := 0x7FF0000000000000

/-- e = 2047 and f ≠ 0, whatever the payload (R63, R64). -/
def isNaN (x : Word) : Bool := decide (infMag < magOf x)

/-- ±infinity. -/
def isInf (x : Word) : Bool := magOf x == infMag

/-- Neither an infinity nor a NaN (R12). -/
def isFinite (x : Word) : Bool := decide (magOf x < infMag)

/-- ±0. -/
def isZero (x : Word) : Bool := magOf x == 0

/-- The word of a sign and magnitude bits. -/
def pack (neg : Bool) (mag : Nat) : Word := BitVec.ofNat 64 (mag + (if neg then 2 ^ 63 else 0))

/-- ±infinity. -/
def infWord (neg : Bool) : Word := pack neg infMag

/-- ±0. -/
def zeroWord (neg : Bool) : Word := pack neg 0

/-- The NaN that operations give. No result register ever holds a NaN (R64), so which NaN it is
cannot be observed (log entry 6). -/
def nanWord : Word := 0x7FF8000000000000

/-- The integer m for which the finite magnitude bits stand for m · 2^-1074 (R63): f for e = 0, and
2^(e-1) · (2^52 + f) for 1 ≤ e ≤ 2046. -/
def magValue (mag : Nat) : Nat :=
  if mag / 2 ^ 52 = 0 then mag % 2 ^ 52
  else 2 ^ (mag / 2 ^ 52 - 1) * (2 ^ 52 + mag % 2 ^ 52)

/-- What a bit pattern stands for (R63). -/
inductive F64 where
  | nan
  | inf (neg : Bool)
  /-- (-1)^neg · m · 2^-1074 -/
  | fin (neg : Bool) (m : Nat)
  deriving DecidableEq, Repr

/-- `f64(b)` (R11, R63). -/
def f64 (x : Word) : F64 :=
  if isNaN x then .nan
  else if isInf x then .inf (signOf x)
  else .fin (signOf x) (magValue (magOf x))

/-! ### Rounding (R99) -/

/-- n / d to the nearest integer, ties to even. -/
def roundHalfEven (n d : Nat) : Nat :=
  if 2 * (n % d) < d ∨ (2 * (n % d) = d ∧ n / d % 2 = 0) then n / d else n / d + 1

/-- How many low bits of the integer part of n / d lie below a 53-bit significand. -/
def excess (n d : Nat) : Nat := Nat.log2 (n / d) - 52

/-- The magnitude bits nearest (n / d) · 2^-1074, ties to even, and the infinity where that exceeds
the finite range. The unit in the last place is 2^excess; magnitude bits are excess · 2^52 plus the
number of units, because a significand that carries to 2^53 is the next binade's first one, and with
excess 0 the number of units is the subnormal or first-binade pattern itself. -/
def roundMag (n d : Nat) : Nat :=
  min infMag (excess n d * 2 ^ 52 + roundHalfEven n (d * 2 ^ excess n d))

/-- m with its sign, as an integer. -/
def signed (neg : Bool) (m : Nat) : Int := if neg then -(m : Int) else (m : Int)

/-! ### The operations (R12, R99) -/

/-- `-a`: the sign bit flips, all other bits stay. -/
def fneg (a : Word) : Word := pack (!signOf a) (magOf a)

/-- The sum of two finite values, rounded once. An exact zero keeps the sign of like-signed zeros and
is +0 otherwise. -/
def addFinite (s : Bool) (m : Nat) (t : Bool) (n : Nat) : Word :=
  let x := signed s m + signed t n
  if x = 0 then zeroWord (s && t)
  else pack (decide (x < 0)) (roundMag x.natAbs 1)

/-- `a + b` -/
def fadd (a b : Word) : Word :=
  match f64 a, f64 b with
  | .nan, _ => nanWord
  | _, .nan => nanWord
  | .inf s, .inf t => if s = t then infWord s else nanWord
  | .inf s, .fin _ _ => infWord s
  | .fin _ _, .inf t => infWord t
  | .fin s m, .fin t n => addFinite s m t n

/-- `a - b` -/
def fsub (a b : Word) : Word := fadd a (fneg b)

/-- `a × b` -/
def fmul (a b : Word) : Word :=
  match f64 a, f64 b with
  | .nan, _ => nanWord
  | _, .nan => nanWord
  | .inf s, .inf t => infWord (s ^^ t)
  | .inf s, .fin t n => if n = 0 then nanWord else infWord (s ^^ t)
  | .fin s m, .inf t => if m = 0 then nanWord else infWord (s ^^ t)
  | .fin s m, .fin t n => pack (s ^^ t) (roundMag (m * n) (2 ^ 1074))

/-- `a / b` -/
def fdiv (a b : Word) : Word :=
  match f64 a, f64 b with
  | .nan, _ => nanWord
  | _, .nan => nanWord
  | .inf _, .inf _ => nanWord
  | .inf s, .fin t _ => infWord (s ^^ t)
  | .fin s _, .inf t => zeroWord (s ^^ t)
  | .fin s m, .fin t n =>
    if n = 0 then (if m = 0 then nanWord else infWord (s ^^ t))
    else pack (s ^^ t) (roundMag (m * 2 ^ 1074) n)

/-- `a < b`, false with a NaN operand (R12). `a > b` is `flt b a`. -/
def flt (a b : Word) : Bool :=
  match f64 a, f64 b with
  | .nan, _ => false
  | _, .nan => false
  | .inf s, .inf t => s && !t
  | .inf s, .fin _ _ => s
  | .fin _ _, .inf t => !t
  | .fin s m, .fin t n => decide (signed s m < signed t n)

/-! ### Constants (R71) -/

/-- 1.0 -/
def oneWord : Word := 0x3FF0000000000000

/-- 2.0 -/
def twoWord : Word := 0x4000000000000000

/-- 10.0 -/
def tenWord : Word := 0x4024000000000000

/-- 40.0 -/
def fortyWord : Word := 0x4044000000000000

end Sys2Proof.Machine
end

