-- ==== Sys2Proof/Machine/State.lean ====
section
/-! DEFINITION. The state of one BQD instance (R20), the reasons a step can stop, and reset (R180). -/

namespace Sys2Proof.Machine

/-- One BQD instance. The first ten fields are its architectural state (R20); CMD and the reserved
offsets have no storage (R31, R41). The last two are the model's own and no state of BQD: what still
waits at its port, and what the port last answered (log entries 1 and 2). -/
structure State where
  /-- GAIN_DB, operand, offset 0x00 (R22) -/
  gainDb : Word
  /-- FREQ, operand, offset 0x08 (R23) -/
  freq : Word
  /-- Q, operand, offset 0x10 (R24) -/
  q : Word
  /-- FS, operand, offset 0x18 (R25) -/
  fs : Word
  /-- STATUS, offset 0x28 (R27) -/
  status : Word
  /-- B0, result, offset 0x30 (R26) -/
  b0 : Word
  /-- B1, result, offset 0x38 (R26) -/
  b1 : Word
  /-- B2, result, offset 0x40 (R26) -/
  b2 : Word
  /-- A1, result, offset 0x48 (R26) -/
  a1 : Word
  /-- A2, result, offset 0x50 (R26) -/
  a2 : Word
  /-- what the requester and the platform still present to the port, oldest first -/
  port : List PortEvent
  /-- the value the port returned for the most recent admitted read, none before the first -/
  readData : Option Word
  deriving DecidableEq, Repr

/-- Why the machine stops. -/
inductive Fault where
  /-- `raise BusError` (R13, R42, R144): raised by `step` for an access at the port that is not 8 bytes
  wide or not aligned, and by RD and WR at an offset that is not a multiple of 8. Nothing was read,
  written or started, and the step has no successor at BQD. Safe. -/
  | busError
  deriving DecidableEq, Repr

/-- Why the model gives an instruction no meaning. -/
inductive Refusal where
  /-- The opcode-table row of that mnemonic has no meaning in the model yet. Raised by no arm of
  `exec`: every row has its meaning. Safe. -/
  | notModelled (mnemonic : String)
  deriving DecidableEq, Repr

/-- The machine right after reset: every register of R20 holds the all-zero word (R35, R180). Nothing
waits at the port and nothing has been read (log entries 1 and 2). -/
def State.reset : State where
  gainDb := 0x0000000000000000
  freq := 0x0000000000000000
  q := 0x0000000000000000
  fs := 0x0000000000000000
  status := 0x0000000000000000
  b0 := 0x0000000000000000
  b1 := 0x0000000000000000
  b2 := 0x0000000000000000
  a1 := 0x0000000000000000
  a2 := 0x0000000000000000
  port := []
  readData := none

end Sys2Proof.Machine
end

