-- ==== Sys2Proof/Machine/Operands.lean ====
section
/-! DEFINITION. The register map of the window (R41) and the one place that reads or writes a register
by its offset (R44, R45). -/

namespace Sys2Proof.Machine

/-- What stands at an offset of the window (R41). -/
inductive Target where
  | gainDb
  | freq
  | q
  | fs
  | cmd
  | status
  | b0
  | b1
  | b2
  | a1
  | a2
  | reserved
  deriving DecidableEq, Repr

/-- The register map (R41): a register's index is its offset divided by 8. -/
def targetOf (off : Offset) : Target :=
  match off.toNat / 8 with
  | 0 => .gainDb
  | 1 => .freq
  | 2 => .q
  | 3 => .fs
  | 4 => .cmd
  | 5 => .status
  | 6 => .b0
  | 7 => .b1
  | 8 => .b2
  | 9 => .a1
  | 10 => .a2
  | _ => .reserved

/-- What a read returns (R44): the register bit for bit, and zero for CMD and the reserved offsets. -/
def State.readTarget (s : State) : Target → Word
  | .gainDb => s.gainDb
  | .freq => s.freq
  | .q => s.q
  | .fs => s.fs
  | .cmd => 0x0000000000000000
  | .status => s.status
  | .b0 => s.b0
  | .b1 => s.b1
  | .b2 => s.b2
  | .a1 => s.a1
  | .a2 => s.a2
  | .reserved => 0x0000000000000000

/-- The register write of R45 where it performs no command: an operand register takes the raw bits
unchecked; a read-only register and a reserved offset ignore the write. (CMD has no storage, R31: its
write is a command, `execWr`.) -/
def State.storeTarget (s : State) (t : Target) (v : Word) : State :=
  match t with
  | .gainDb => { s with gainDb := v }
  | .freq => { s with freq := v }
  | .q => { s with q := v }
  | .fs => { s with fs := v }
  | .cmd => s
  | .status => s
  | .b0 => s
  | .b1 => s
  | .b2 => s
  | .a1 => s
  | .a2 => s
  | .reserved => s

/-- The byte lane at an offset of the window (R43): byte k of a register is its bits [8k+7:8k]. No
admitted access observes it. -/
def State.windowByte (s : State) (off : Offset) : Byte :=
  (s.readTarget (targetOf off)).extractLsb' (8 * (off.toNat % 8)) 8

end Sys2Proof.Machine
end

