-- ==== Sys2Proof/Machine/Ops.lean ====
section
/-! DEFINITION. The completion of a command: the commit of a result (R95) and the error entry (R96,
R140, R146). An error transfers no control, and there is no return from one (R147): the next command
or a reset overwrites what it left. -/

namespace Sys2Proof.Machine

/-- The five coefficients a design returns (R15, R26). -/
structure Coeffs where
  b0 : Word
  b1 : Word
  b2 : Word
  a1 : Word
  a2 : Word
  deriving DecidableEq, Repr

/-- All five are finite: the result check of R94. -/
def Coeffs.allFinite (c : Coeffs) : Bool :=
  isFinite c.b0 && isFinite c.b1 && isFinite c.b2 && isFinite c.a1 && isFinite c.a2

/-- How a command ends. -/
inductive Completion where
  /-- `Commit` (R95) -/
  | commit (c : Coeffs)
  /-- `Fail` (R96), with the code of the cause (R142) -/
  | fail (cause : Cause)
  deriving DecidableEq, Repr

/-- `Commit` (R95): the five results, and STATUS = VALID. Nothing else changes. -/
def State.commit (s : State) (c : Coeffs) : State :=
  { s with b0 := c.b0, b1 := c.b1, b2 := c.b2, a1 := c.a1, a2 := c.a2,
           status := statusWord true .none .ok }

/-- `Fail` (R96), the error entry: the five results become +0.0 and STATUS takes the cause and its
code. Nothing else changes (R140). -/
def State.fail (s : State) (cause : Cause) : State :=
  { s with b0 := 0x0000000000000000, b1 := 0x0000000000000000, b2 := 0x0000000000000000,
           a1 := 0x0000000000000000, a2 := 0x0000000000000000,
           status := statusWord false cause (causeCode cause) }

/-- The one way a command writes the state. -/
def State.complete (s : State) : Completion → State
  | .commit c => s.commit c
  | .fail cause => s.fail cause

/-- Reset (R35, R180): every register of R20 takes its reset value. What waits at the port, and the
value last handed to the requester, are no state of BQD (log entry 11). -/
def State.resetRegisters (s : State) : State :=
  { State.reset with port := s.port, readData := s.readData }

end Sys2Proof.Machine
end

