-- ==== Sys2Proof/Config.lean ====
section
/-! DEFINITION. What the platform or the implementation fixes and the spec leaves open
(R9, 92_eei_decisions.md "Open parameters"). Each is a constant without a body: a claim proved about
the model is true whatever the constant is. -/

namespace Sys2Proof.Config

/-- The raw value of `fsin` (R9, R100). `Machine.sinOf` holds it to the properties R100 requires. -/
opaque fsinRaw : Word → Word

/-- The raw value of `fcos` (R9, R100). `Machine.cosOf` holds it to the properties R100 requires. -/
opaque fcosRaw : Word → Word

/-- The raw value of `fpow10` (R9, R101). `Machine.pow10Of` holds it to the properties R101 requires. -/
opaque fpow10Raw : Word → Word

/-- One less than `N_INSTANCES` (R9, R152): so `N_INSTANCES` is any number from 1 up. -/
opaque extraInstances : Nat

/-- `BQD_BASE` of the instance with the lowest window, divided by 128 (R9, R40: a multiple of 128). -/
opaque firstWindow : Nat

/-- How many 128-byte windows lie free between the window of instance `k` and that of instance
`k + 1`, the instances being numbered by rising base address (R152: each has its own window). -/
opaque windowGap : Nat → Nat

end Sys2Proof.Config
end

