-- ==== Sys2Proof/Machine/Transcendental.lean ====
section
/-! DEFINITION. The open functions `fsin`, `fcos` and `fpow10` (R9, R100, R101): any raw function,
held to exactly the properties the two rules require. -/

namespace Sys2Proof.Machine

/-- A choice of the three open functions (R9, 92_eei_decisions.md D4). -/
structure MathLib where
  fsin : Word → Word
  fcos : Word → Word
  fpow10 : Word → Word

/-- A value of [-1, 1] (R100 property 2). -/
def inUnit (x : Word) : Bool := decide (magOf x ≤ magOf oneWord)

/-- 10^y exceeds the binary64 range: the finite y that are at least 0x40734413509F79FF, the first
binary64 value above log10 of the largest finite one, 308.25471555991674385… (R101 property 4; log
entry 4). -/
def powOverflows (y : Word) : Bool := !signOf y && decide (0x40734413509F79FF ≤ magOf y)

/-- 10^y is below the normal range: the finite y that are at most 0xC0733A7146F72A42, the first
binary64 value below log10 of 2^-1022, -307.65265556858878150… (R101 property 4; log entry 4). -/
def powBelowNormal (y : Word) : Bool := signOf y && decide (0x40733A7146F72A42 ≤ magOf y)

/-- y is at most -324, where 10^y is below half the least subnormal and underflows to zero (R115;
log entry 5). -/
def powUnderflows (y : Word) : Bool := signOf y && decide (0x4074400000000000 ≤ magOf y)

/-- +0 or a positive subnormal (R101 property 4). -/
def zeroOrSubnormal (x : Word) : Bool := !signOf x && decide (magOf x < 2 ^ 52)

/-- The sine with the properties of R100, from a raw function. -/
def sinOf (raw : Word → Word) (x : Word) : Word :=
  if !isFinite x then nanWord
  else if isZero x then x
  else if inUnit (raw x) then raw x
  else zeroWord false

/-- The cosine with the properties of R100, from a raw function. -/
def cosOf (raw : Word → Word) (x : Word) : Word :=
  if !isFinite x then nanWord
  else if isZero x then oneWord
  else if inUnit (raw x) then raw x
  else zeroWord false

/-- 10^y with the properties of R101, from a raw function. -/
def pow10Of (raw : Word → Word) (y : Word) : Word :=
  if isNaN y then nanWord
  else if isInf y then (if signOf y then zeroWord false else infWord false)
  else if isZero y then oneWord
  else if y = oneWord then tenWord
  else if powOverflows y then infWord false
  else if powUnderflows y then zeroWord false
  else if powBelowNormal y then (if zeroOrSubnormal (raw y) then raw y else zeroWord false)
  else if isNaN (raw y) || signOf (raw y) then oneWord
  else raw y

/-- What R100 and R101 require of the three functions, in the same order, and the underflow of R115.
R100 property 1 and R101 property 1 need no line: a function depends on its argument alone. -/
structure LawfulMath (M : MathLib) : Prop where
  sin_unit : ∀ x, isFinite x = true → inUnit (M.fsin x) = true
  cos_unit : ∀ x, isFinite x = true → inUnit (M.fcos x) = true
  sin_zero : ∀ neg, M.fsin (zeroWord neg) = zeroWord neg
  cos_zero : ∀ neg, M.fcos (zeroWord neg) = oneWord
  sin_nan : ∀ x, isFinite x = false → isNaN (M.fsin x) = true
  cos_nan : ∀ x, isFinite x = false → isNaN (M.fcos x) = true
  pow_zero : ∀ neg, M.fpow10 (zeroWord neg) = oneWord
  pow_nan : ∀ y, isNaN y = true → isNaN (M.fpow10 y) = true
  pow_pos_inf : M.fpow10 (infWord false) = infWord false
  pow_neg_inf : M.fpow10 (infWord true) = zeroWord false
  pow_not_nan : ∀ y, isFinite y = true → isNaN (M.fpow10 y) = false
  pow_nonneg : ∀ y, isFinite y = true → signOf (M.fpow10 y) = false
  pow_overflow : ∀ y, isFinite y = true → powOverflows y = true → M.fpow10 y = infWord false
  pow_below : ∀ y, isFinite y = true → powBelowNormal y = true → zeroOrSubnormal (M.fpow10 y) = true
  pow_underflow : ∀ y, isFinite y = true → powUnderflows y = true → M.fpow10 y = zeroWord false
  pow_one : M.fpow10 oneWord = tenWord

/-- The platform's open choice: nothing is known of it but R100 and R101. -/
def openMath : MathLib where
  fsin := sinOf Config.fsinRaw
  fcos := cosOf Config.fcosRaw
  fpow10 := pow10Of Config.fpow10Raw

end Sys2Proof.Machine
end

