-- ==== Sys2Proof/Machine/Design.lean ====
section
/-! DEFINITION. What both designs share (40_design_common.md): validation, w0 and alpha, normalisation
and the result check. The operands of a design are the values of the four operand registers (R81). -/

namespace Sys2Proof.Machine

/-- `TWO_PI` (R9): twice the binary64 value nearest π. -/
def twoPi : Word := 0x401921FB54442D18

/-- The operand checks in their order (R80, R84 to R88, R143): the cause of the first that fails. -/
def validate (f q fs : Word) : Option Cause :=
  if !flt (zeroWord false) fs then some .fsNotPositive
  else if !isFinite fs then some .fsNotFinite
  else if !(flt (zeroWord false) f && flt f (fdiv fs twoWord)) then some .freqOutOfRange
  else if !flt (zeroWord false) q then some .qNotPositive
  else if !isFinite q then some .qNotFinite
  else none

/-- `w0 <- (TWO_PI × f) / fs` (R90). -/
def angle (f fs : Word) : Word := fdiv (fmul twoPi f) fs

/-- `alpha <- s / (2 × q)` (R92). -/
def alphaOf (s q : Word) : Word := fdiv s (fmul twoWord q)

/-- `-(2 × c)`: the raw b1 of a peaking design and the raw a1 of both (R112, R121). -/
def minusTwice (c : Word) : Word := fneg (fmul twoWord c)

/-- The six coefficients before normalisation (R80). -/
structure RawCoeffs where
  b0 : Word
  b1 : Word
  b2 : Word
  a0 : Word
  a1 : Word
  a2 : Word
  deriving DecidableEq, Repr

/-- Each of the five divided by a0 (R93). -/
def normalise (r : RawCoeffs) : Coeffs where
  b0 := fdiv r.b0 r.a0
  b1 := fdiv r.b1 r.a0
  b2 := fdiv r.b2 r.a0
  a1 := fdiv r.a1 r.a0
  a2 := fdiv r.a2 r.a0

/-- The result check (R94). -/
def checked (c : Coeffs) : Completion :=
  if c.allFinite then .commit c else .fail .resultNotFinite

/-- `ExecCmd` from the operand checks on (R80), for the raw coefficients of a design as a function of
fsin(w0) and fcos(w0). -/
def designWith (M : MathLib) (raw : Word → Word → RawCoeffs) (f q fs : Word) : Completion :=
  match validate f q fs with
  | some cause => .fail cause
  | none => checked (normalise (raw (M.fsin (angle f fs)) (M.fcos (angle f fs))))

end Sys2Proof.Machine
end

