-- ==== Sys2Proof/Machine/LowPass.lean ====
section
/-! DEFINITION. DESIGN.LP (42_low_pass.md). -/

namespace Sys2Proof.Machine

/-- `RawLP` (R120, R121) from c and alpha. -/
def rawLp (c alpha : Word) : RawCoeffs :=
  let omc := fsub oneWord c
  { b0 := fdiv omc twoWord
    b1 := omc
    b2 := fdiv omc twoWord
    a0 := fadd oneWord alpha
    a1 := minusTwice c
    a2 := fsub oneWord alpha }

/-- The low-pass design of three operands (R80, R120). The gain is no argument of it (R122). -/
def lowPassDesign (M : MathLib) (f q fs : Word) : Completion :=
  designWith M (fun s c => rawLp c (alphaOf s q)) f q fs

/-- DESIGN.LP (R120): writes the results and STATUS. Its read of GAIN_DB has no effect (R81, R122). -/
def execDesignLp (s : State) : Host.Outcome State Fault Refusal :=
  .next (s.complete (lowPassDesign openMath s.freq s.q s.fs))

end Sys2Proof.Machine
end

