-- ==== Sys2Proof/Machine/Peaking.lean ====
section
/-! DEFINITION. DESIGN.PK (41_peaking.md). -/

namespace Sys2Proof.Machine

/-- `A <- fpow10(g / 40)` (R111). -/
def amplitude (M : MathLib) (g : Word) : Word := M.fpow10 (fdiv g fortyWord)

/-- `RawPK` (R110, R112) from A, c and alpha. -/
def rawPk (A c alpha : Word) : RawCoeffs :=
  let aA := fmul alpha A
  let aoA := fdiv alpha A
  { b0 := fadd oneWord aA
    b1 := minusTwice c
    b2 := fsub oneWord aA
    a0 := fadd oneWord aoA
    a1 := minusTwice c
    a2 := fsub oneWord aoA }

/-- The peaking design of four operands (R80, R110). -/
def peakingDesign (M : MathLib) (g f q fs : Word) : Completion :=
  designWith M (fun s c => rawPk (amplitude M g) c (alphaOf s q)) f q fs

/-- DESIGN.PK (R110): reads the four operand registers (R81), writes the results and STATUS. -/
def execDesignPk (s : State) : Host.Outcome State Fault Refusal :=
  .next (s.complete (peakingDesign openMath s.gainDb s.freq s.q s.fs))

end Sys2Proof.Machine
end

