-- ==== Sys2Proof/Machine/Bus.lean ====
section
/-! DEFINITION. RD and WR (20_memory.md), and `ExecCmd` behind a write to CMD (R80). -/

namespace Sys2Proof.Machine

/-- The CAUSE of an illegal word (R61, R142). -/
def illegalCause : IllegalWord → Cause
  | .reservedBits => .reservedBits
  | .illegalKind => .illegalKind

/-- `ExecCmd(v)` (R80): decode the word (R61) and run the command; an illegal word completes with
ILLEGAL_COMMAND and its cause, no operand examined (R82). -/
def execCmd (v : Word) (s : State) : Host.Outcome State Fault Refusal :=
  match decodeWord v with
  | .ok .peaking => execDesignPk s
  | .ok .lowPass => execDesignLp s
  | .error why => .next (s.fail (illegalCause why))

/-- RD (R44): the port returns the register's value, and nothing else changes. A misaligned offset
raises BusError (R42). -/
def execRd (off : Offset) (s : State) : Host.Outcome State Fault Refusal :=
  if Offset.aligned off then .next { s with readData := some (s.readTarget (targetOf off)) }
  else .fault .busError

/-- WR (R45): a write to CMD performs a command; any other writes its register or is ignored. A
misaligned offset raises BusError and starts no command (R42). -/
def execWr (off : Offset) (data : Word) (s : State) : Host.Outcome State Fault Refusal :=
  if Offset.aligned off then
    if targetOf off = .cmd then execCmd data s
    else .next (s.storeTarget (targetOf off) data)
  else .fault .busError

end Sys2Proof.Machine
end

