-- ==== Sys2Proof/Machine/Port.lean ====
section
/-! DEFINITION. BQD's port: which event comes next and what it asks for (R44, R45, R48), and how the
words of the opcode table and a listing (R70) are presented to it. -/

namespace Sys2Proof.Machine

/-- What the oldest event at the port asks for, with the state from which it has been taken. -/
inductive Fetched where
  /-- Nothing waits at the port. -/
  | idle
  /-- A reset (R180). -/
  | reset (t : State)
  /-- An instruction of the opcode table. -/
  | instr (i : Instr) (t : State)
  /-- A write to CMD of a word that is no command (R61). -/
  | illegalWord (v : Word) (t : State)
  /-- An access that is not admitted (R42). -/
  | refusedAccess
  deriving DecidableEq, Repr

/-- The state once the oldest event has been taken from the port. -/
def State.advance (s : State) : State := { s with port := s.port.tail }

/-- Take the oldest event from the port (R48: one at a time, in the order received) and decode it. -/
def fetch (s : State) : Fetched :=
  match s.port with
  | [] => .idle
  | .reset :: _ => .reset s.advance
  | .command v :: _ =>
    match decodeCommand v with
    | .ok i => .instr i s.advance
    | .error _ => .illegalWord v s.advance
  | .access a :: _ =>
    match decodeAccess a with
    | .ok i => .instr i s.advance
    | .error _ => .refusedAccess

/-- A listing's accesses at the port, in order: how a requester's program is presented (R48, R70). -/
def State.present (s : State) (accesses : List Access) : State :=
  { s with port := s.port ++ accesses.map .access }

/-- The event that presents the bits of an opcode-table row: a row of 64 bits is a command word, a
shorter one the access its descriptor byte names. -/
def tableEvent (nbits w : Nat) : PortEvent :=
  match (tableBytes nbits w).1 with
  | .cmdw => .command (ofLittleEndian (tableBytes nbits w).2)
  | .bus8 =>
    match readListing (tableBytes nbits w).2 with
    | some (a, _) => .access a
    | none => .command 0

/-- The state with an event ahead of everything that waits at the port. -/
def State.presentFirst (s : State) (e : PortEvent) : State := { s with port := e :: s.port }

end Sys2Proof.Machine
end

