-- ==== Sys2Proof/Machine/Step.lean ====
section
/-! DEFINITION. One step: the oldest event at the port, performed whole (R46, R48). -/

namespace Sys2Proof.Machine

/-- One step of BQD. With nothing at the port nothing changes: BQD runs no program (R33) and keeps its
registers (R154). -/
def step (s : State) : Host.Outcome State Fault Refusal :=
  match fetch s with
  | .idle => .next s
  | .reset t => .next t.resetRegisters
  | .instr i t => exec i t
  | .illegalWord v t => execCmd v t
  | .refusedAccess => .fault .busError

/-- s with the instruction of an opcode-table row presented to the port ahead of everything else, so
that the next step runs exactly it. -/
def State.withFetchWord (s : State) (nbits w : Nat) : State := s.presentFirst (tableEvent nbits w)

end Sys2Proof.Machine
end

