-- ==== Sys2Proof/Machine/Platform.lean ====
section
/-! DEFINITION. The platform around BQD: `N_INSTANCES` instances, each behind its own window (R9, R40,
R152). A platform is the list of its instances, numbered by rising base address (log entry 12). -/

namespace Sys2Proof.Machine

/-- `N_INSTANCES` (R9): at least 1. -/
def nInstances : Nat := Config.extraInstances + 1

/-- The number of the 128-byte window at which instance k stands. -/
def windowIndex : Nat → Nat
  | 0 => Config.firstWindow
  | k + 1 => windowIndex k + 1 + Config.windowGap k

/-- `BQD_BASE` of instance k: a multiple of 128 (R9, R40). -/
def bqdBase (k : Nat) : Nat := 128 * windowIndex k

/-- An access as the requester issues it on the bus (R13). -/
structure BusAccess where
  isWrite : Bool
  addr : Nat
  size : Nat
  data : Word
  deriving DecidableEq, Repr

/-- The access instance k sees: one whose address lies in its window, at the offset address minus
`BQD_BASE` (R44), and none otherwise: BQD does not decode what lies outside (R40).
DESIGN CHOICE (log entry 14): the start address alone decides. The spec names no case for an access
that starts outside a window and whose bytes reach into it; the instance it only overlaps neither sees
nor refuses it. An admitted access (8 bytes, aligned) never does that. -/
def routeTo (k : Nat) (b : BusAccess) : Option Access :=
  if bqdBase k ≤ b.addr ∧ b.addr < bqdBase k + 128 then
    some ⟨b.isWrite, BitVec.ofNat 7 (b.addr - bqdBase k), b.size, b.data⟩
  else none

/-- The platform after a power-up (R154, R180). -/
def platformReset : List State := List.replicate nInstances State.reset

/-- The access reaches the port of the instance whose window holds its address. -/
def platformDeliver (b : BusAccess) (p : List State) : List State :=
  p.mapIdx fun k s =>
    match routeTo k b with
    | some a => s.present [a]
    | none => s

/-- Instance k makes one step; the order between instances is the caller's choice of k (R152). -/
def platformStep (k : Nat) (p : List State) : Host.Outcome (List State) Fault Refusal :=
  match p[k]? with
  | none => .next p
  | some s =>
    match step s with
    | .next t => .next (p.set k t)
    | .fault e => .fault e
    | .refused e => .refused e

end Sys2Proof.Machine
end

