-- ==== Sys2Proof/Machine/Reference.lean ====
section
/-! DEFINITION. What "rounded to nearest, ties to even" (R12, R99) and "correctly rounded" (R100,
R101) mean, over the real numbers: the measure the arithmetic is held to. No step uses it. -/

namespace Sys2Proof.Machine

/-- The number a finite word stands for (R63). -/
def valueOf (x : Word) : ℚ := (signed (signOf x) (magValue (magOf x)) : ℚ) / 2 ^ 1074

/-- w is the binary64 value nearest r, ties to the even pattern, with the sign of r; and the infinity
of r's sign where r is at or beyond the midpoint 2^1024 - 2^970 of the largest finite value and the
next power of two. -/
def RoundsTo (r : ℝ) (w : Word) : Prop :=
  (r < 0 → signOf w = true) ∧ (0 < r → signOf w = false) ∧
  (|r| < 2 ^ 1024 - 2 ^ 970 →
    isFinite w = true ∧
    (∀ v, isFinite v = true → |(valueOf w : ℝ) - r| ≤ |(valueOf v : ℝ) - r|) ∧
    (∀ v, isFinite v = true → valueOf v ≠ valueOf w → |(valueOf v : ℝ) - r| = |(valueOf w : ℝ) - r| →
      w.getLsbD 0 = false)) ∧
  (2 ^ 1024 - 2 ^ 970 ≤ |r| → isInf w = true)

/-- The reference instance of the open functions (R9, R100, R101): correctly rounded. -/
structure ReferenceMath (M : MathLib) : Prop where
  lawful : LawfulMath M
  sin : ∀ x, isFinite x = true → RoundsTo (Real.sin (valueOf x)) (M.fsin x)
  cos : ∀ x, isFinite x = true → RoundsTo (Real.cos (valueOf x)) (M.fcos x)
  pow10 : ∀ y, isFinite y = true → RoundsTo ((10 : ℝ) ^ (valueOf y : ℝ)) (M.fpow10 y)

end Sys2Proof.Machine
end

