-- ==== Sys2Proof/Safety.lean ====
section
/-! DEFINITION. What a sound state of BQD is and what a safe step is. -/

namespace Sys2Proof.Machine

/-- The words that may stand in STATUS (R65): reset, success, and one for each cause of R142. -/
def legalStatusWords : List Word :=
  [0x0000000000000000, 0x0000000000000100, 0x0000000000000013, 0x0000000000000023,
   0x0000000000000032, 0x0000000000000042, 0x0000000000000051, 0x0000000000000061,
   0x0000000000000071, 0x0000000000000081]

/-- STATUS after a successful command (R28). -/
def successWord : Word := 0x0000000000000100

/-- The five result registers. -/
def State.results (s : State) : Coeffs := ⟨s.b0, s.b1, s.b2, s.a1, s.a2⟩

/-- +0.0 in all five. -/
def Coeffs.cleared : Coeffs := ⟨0, 0, 0, 0, 0⟩

/-- The invariant of BQD's registers: STATUS is a legal word (R65), no result is a NaN or an infinity
(R26, R64), and the results are +0.0 unless STATUS says success (R27, R29). -/
def State.Sound (s : State) : Prop :=
  s.status ∈ legalStatusWords ∧ s.results.allFinite = true ∧
  (s.status ≠ successWord → s.results = Coeffs.cleared)

/-- The operands a command admits (R84 to R88). -/
def OperandsAdmitted (f q fs : Word) : Prop :=
  flt 0x0000000000000000 fs = true ∧ isFinite fs = true ∧
  flt 0x0000000000000000 f = true ∧ flt f (fdiv fs 0x4000000000000000) = true ∧
  flt 0x0000000000000000 q = true ∧ isFinite q = true

/-- `w0` (R90), `alpha` (R92), and the two quotients' numerators and denominators written out: the five
coefficients of a peaking design of the operand registers (R93, R111, R112). -/
def State.peakingCoeffs (s : State) : Coeffs :=
  let w0 := fdiv (fmul 0x401921FB54442D18 s.freq) s.fs
  let c := openMath.fcos w0
  let alpha := fdiv (openMath.fsin w0) (fmul 0x4000000000000000 s.q)
  let A := openMath.fpow10 (fdiv s.gainDb 0x4044000000000000)
  let a0 := fadd 0x3FF0000000000000 (fdiv alpha A)
  { b0 := fdiv (fadd 0x3FF0000000000000 (fmul alpha A)) a0
    b1 := fdiv (fneg (fmul 0x4000000000000000 c)) a0
    b2 := fdiv (fsub 0x3FF0000000000000 (fmul alpha A)) a0
    a1 := fdiv (fneg (fmul 0x4000000000000000 c)) a0
    a2 := fdiv (fsub 0x3FF0000000000000 (fdiv alpha A)) a0 }

/-- The five coefficients of a low-pass design of the operand registers (R90, R92, R93, R121). -/
def State.lowPassCoeffs (s : State) : Coeffs :=
  let w0 := fdiv (fmul 0x401921FB54442D18 s.freq) s.fs
  let c := openMath.fcos w0
  let alpha := fdiv (openMath.fsin w0) (fmul 0x4000000000000000 s.q)
  let omc := fsub 0x3FF0000000000000 c
  let a0 := fadd 0x3FF0000000000000 alpha
  { b0 := fdiv (fdiv omc 0x4000000000000000) a0
    b1 := fdiv omc a0
    b2 := fdiv (fdiv omc 0x4000000000000000) a0
    a1 := fdiv (fneg (fmul 0x4000000000000000 c)) a0
    a2 := fdiv (fsub 0x3FF0000000000000 alpha) a0 }

/-- The state after a success (R95): the five results, STATUS = VALID, nothing else. -/
def State.succeeded (s : State) (c : Coeffs) : State :=
  { s with b0 := c.b0, b1 := c.b1, b2 := c.b2, a1 := c.a1, a2 := c.a2, status := 0x0000000000000100 }

/-- The state after a failure that leaves the word w in STATUS (R96): the five results +0.0, nothing
else. -/
def State.failedWith (s : State) (w : Word) : State :=
  { s with b0 := 0x0000000000000000, b1 := 0x0000000000000000, b2 := 0x0000000000000000,
           a1 := 0x0000000000000000, a2 := 0x0000000000000000, status := w }

/-- One of the two commands (R66). -/
def IsCommand (i : Instr) : Prop := i = .designPk ∨ i = .designLp

/-- Command i admits the operands of s: it completes, with success (R95) or with the one failure that no
operand check decides (R94). -/
def Admits (i : Instr) (s : State) : Prop :=
  ∃ t, exec i s = .next t ∧ (t.status = 0x0000000000000100 ∨ t.status = 0x0000000000000081)

/-- A step is safe when it has a successor: no access was refused (R144). -/
def StepSafe (s : State) : Prop := ∃ t, step s = .next t

end Sys2Proof.Machine
end

