-- ==== Sys2Proof/Certificates/Slice0/Obligations.lean ====
section
/-! DEFINITION. The statements for the provers. Each docstring names the rule of spec/ it formalises.
No statement rests on the reset value of `State.port` or `State.readData`, or on a value of the open
functions that R100 and R101 do not give. -/

open Sys2Proof Sys2Proof.Machine

/-! ### Encoding -/

/-- R60, R66, R70, byte orders as in log entry 9: decoding what the encoder wrote gives the instruction
back, with every operand at every value, whatever bytes follow. -/
def Obligations.DecodeOfEncodeIsIdentity : Prop :=
  ∀ (i : Instr) (rest : List Byte), i.wf = true → decode i.format (encode i ++ rest) = .ok (i, rest)

/-- R60, R61, R70: bytes that decode are the encoding of a well-formed instruction of that encoding
space, so no two byte strings mean the same instruction. -/
def Obligations.DecodedBytesAreTheEncoding : Prop :=
  ∀ (fmt : Format) (bytes : List Byte) (i : Instr) (rest : List Byte),
    decode fmt bytes = .ok (i, rest) → i.wf = true ∧ i.format = fmt ∧ bytes = encode i ++ rest

/-- R61, R82: the reserved bits are tested before KIND; only the words 0 and 1 are commands; every
other word completes with ILLEGAL_COMMAND and its cause, whatever the operands hold. -/
def Obligations.CommandWordsDecodeAsTheirKind : Prop :=
  ∀ (v : Word) (s : State),
    (4 ≤ v.toNat → decodeWord v = .error .reservedBits ∧
      exec (.wr 0x20 v) s = .next (s.failedWith 0x0000000000000023)) ∧
    (v = 0x0000000000000000 → decodeWord v = .ok .peaking ∧ exec (.wr 0x20 v) s = exec .designPk s) ∧
    (v = 0x0000000000000001 → decodeWord v = .ok .lowPass ∧ exec (.wr 0x20 v) s = exec .designLp s) ∧
    (v = 0x0000000000000002 ∨ v = 0x0000000000000003 → decodeWord v = .error .illegalKind ∧
      exec (.wr 0x20 v) s = .next (s.failedWith 0x0000000000000013))

/-- R60, R70: words written out from the encodings decode to what they stand for. The byte orders in
which a command word and a data word are laid out here are the model's reading (log entry 9). -/
def Obligations.WrittenOutWordsDecode : Prop :=
  decode .cmdw [0x00, 0x00, 0x00, 0x00, 0x00, 0x00, 0x00, 0x00] = .ok (.designPk, []) ∧
  decode .cmdw [0x01, 0x00, 0x00, 0x00, 0x00, 0x00, 0x00, 0x00] = .ok (.designLp, []) ∧
  decode .bus8 [0xA0, 0x00, 0x00, 0x00, 0x00, 0x00, 0x00, 0x00, 0x01] =
    .ok (.wr 0x20 0x0000000000000001, []) ∧
  decode .bus8 [0x28, 0x30] = .ok (.rd 0x28, [0x30]) ∧
  decode .bus8 [0x98, 0x40, 0xE5, 0x88, 0x80, 0x00, 0x00, 0x00, 0x00] =
    .ok (.wr 0x18 0x40E5888000000000, []) ∧
  decode .bus8 [0x2C] = .error .misaligned ∧
  decode .cmdw [0x06, 0x00, 0x00, 0x00, 0x00, 0x00, 0x00, 0x00] = .error (.illegal .reservedBits)

/-! ### The step -/

/-- R48, R66, R70, byte orders as in log entry 9: when the bytes of an access or of a command word decode
to an instruction, the step that takes it from the port is exec of that instruction in the state without it. -/
def Obligations.StepRunsTheDecodedInstruction : Prop :=
  (∀ (s : State) (a : Access) (rest : List PortEvent) (i : Instr),
    s.port = .access a :: rest → decodeAccess a = .ok i → step s = exec i { s with port := rest }) ∧
  (∀ (s : State) (v : Word) (rest : List PortEvent) (i : Instr),
    s.port = .command v :: rest → decodeCommand v = .ok i → step s = exec i { s with port := rest }) ∧
  (∀ (s : State) (bytes rest : List Byte) (i : Instr), decode .bus8 bytes = .ok (i, rest) →
    ∃ a, readListing bytes = some (a, rest) ∧ step (s.presentFirst (.access a)) = exec i s) ∧
  (∀ (s : State) (bytes rest : List Byte) (i : Instr), decode .cmdw bytes = .ok (i, rest) →
    step (s.presentFirst (.command (ofLittleEndian (bytes.take 8)))) = exec i s)

/-- spec/opcode_table.json, laid out as in log entry 10: when the bits of a table row decode, presenting
them makes the next step exec of that instruction. -/
def Obligations.StepRunsThePresentedTableWord : Prop :=
  ∀ (s : State) (nbits w : Nat) (i : Instr), decodeTableWord nbits w = some i →
    step (s.withFetchWord nbits w) = exec i s

/-- R33, R154, and log entry 1 (the model's choice that a step with nothing at the port changes
nothing). -/
def Obligations.EmptyPortChangesNothing : Prop :=
  ∀ (s : State), s.port = [] → step s = .next s

/-- Log entry 10, the model's choice: a bare command word at the port stands for the admitted 8-byte
write of it to offset 0x20, which performs it (R45, R80). -/
def Obligations.CommandWordIsTheCmdWrite : Prop :=
  ∀ (s : State) (v : Word),
    step (s.presentFirst (.command v)) = step (s.presentFirst (.access ⟨true, 0x20, 8, v⟩)) ∧
    step (s.presentFirst (.command v)) = exec (.wr 0x20 v) s

/-! ### Reads and writes -/

/-- R44: the value each offset returns, that a read has no side effect, and that reading again returns
the same value. (`readData` is the value returned, log entry 2.) -/
def Obligations.ReadReturnsTheRegister : Prop :=
  ∀ (s : State),
    exec (.rd 0x00) s = .next { s with readData := some s.gainDb } ∧
    exec (.rd 0x08) s = .next { s with readData := some s.freq } ∧
    exec (.rd 0x10) s = .next { s with readData := some s.q } ∧
    exec (.rd 0x18) s = .next { s with readData := some s.fs } ∧
    exec (.rd 0x20) s = .next { s with readData := some 0x0000000000000000 } ∧
    exec (.rd 0x28) s = .next { s with readData := some s.status } ∧
    exec (.rd 0x30) s = .next { s with readData := some s.b0 } ∧
    exec (.rd 0x38) s = .next { s with readData := some s.b1 } ∧
    exec (.rd 0x40) s = .next { s with readData := some s.b2 } ∧
    exec (.rd 0x48) s = .next { s with readData := some s.a1 } ∧
    exec (.rd 0x50) s = .next { s with readData := some s.a2 } ∧
    (∀ off : Offset, off.toNat % 8 = 0 → 0x58 ≤ off.toNat →
      exec (.rd off) s = .next { s with readData := some 0x0000000000000000 }) ∧
    (∀ (off : Offset) (t : State), exec (.rd off) s = .next t → exec (.rd off) t = .next t)

/-- R45: an operand register takes the raw bits, a write to CMD performs the command of the word, and
writes to read-only registers and reserved offsets change nothing. -/
def Obligations.WriteFollowsTheRegisterMap : Prop :=
  ∀ (s : State) (v : Word),
    exec (.wr 0x00 v) s = .next { s with gainDb := v } ∧
    exec (.wr 0x08 v) s = .next { s with freq := v } ∧
    exec (.wr 0x10 v) s = .next { s with q := v } ∧
    exec (.wr 0x18 v) s = .next { s with fs := v } ∧
    exec (.wr 0x20 0x0000000000000000) s = exec .designPk s ∧
    exec (.wr 0x20 0x0000000000000001) s = exec .designLp s ∧
    (4 ≤ v.toNat → exec (.wr 0x20 v) s = .next (s.failedWith 0x0000000000000023)) ∧
    (v.toNat = 2 ∨ v.toNat = 3 → exec (.wr 0x20 v) s = .next (s.failedWith 0x0000000000000013)) ∧
    (∀ off : Offset, off.toNat % 8 = 0 → 0x28 ≤ off.toNat → exec (.wr off v) s = .next s)

/-- R42: an access that is not 8 bytes wide, or not at a multiple of 8, is refused with BusError, and
starts nothing: the step has no successor. -/
def Obligations.RefusedAccessFaults : Prop :=
  (∀ (s : State) (a : Access) (rest : List PortEvent), s.port = .access a :: rest →
    a.size ≠ 8 ∨ a.off.toNat % 8 ≠ 0 → step s = .fault .busError) ∧
  (∀ (s : State) (off : Offset), off.toNat % 8 ≠ 0 → exec (.rd off) s = .fault .busError) ∧
  (∀ (s : State) (off : Offset) (v : Word), off.toNat % 8 ≠ 0 → exec (.wr off v) s = .fault .busError)

/-- R42, R144, R146: a refused access is the only thing that stops a step; every other step, whatever
its command word and operands, has a next state. -/
def Obligations.OnlyARefusedAccessStops : Prop :=
  ∀ (s : State), (∃ t, step s = .next t) ∨
    (step s = .fault .busError ∧ ∃ a rest, s.port = .access a :: rest ∧
      (a.size ≠ 8 ∨ a.off.toNat % 8 ≠ 0))

/-- R21, R48: a word written to an operand register is read back bit for bit, and every other offset
reads as it did before the write. -/
def Obligations.OperandWriteReadsBack : Prop :=
  ∀ (s : State) (off : Offset) (v : Word), off.toNat % 8 = 0 → off.toNat < 0x20 →
    ∃ t u, exec (.wr off v) s = .next t ∧ exec (.rd off) t = .next u ∧ u.readData = some v ∧
      ∀ off' : Offset, off'.toNat % 8 = 0 → off' ≠ off →
        ∃ x y w, exec (.rd off') s = .next x ∧ exec (.rd off') t = .next y ∧
          x.readData = some w ∧ y.readData = some w

/-- R43: byte k of the word an admitted read returns is the byte lane at offset + k. -/
def Obligations.ByteLanesAreLittleEndian : Prop :=
  ∀ (s : State) (off : Offset), off.toNat % 8 = 0 →
    ∃ v : Word, exec (.rd off) s = .next { s with readData := some v } ∧
      ∀ k : Nat, k < 8 → s.windowByte (off + BitVec.ofNat 7 k) = v.extractLsb' (8 * k) 8

/-- R46, R48, R81, R186: four operand writes and a command word in a row run that command on exactly
those four values. -/
def Obligations.CommandUsesTheValuesWrittenBeforeIt : Prop :=
  ∀ (s : State) (g f q fs v : Word),
    s.port = [.access ⟨true, 0x00, 8, g⟩, .access ⟨true, 0x08, 8, f⟩, .access ⟨true, 0x10, 8, q⟩,
      .access ⟨true, 0x18, 8, fs⟩, .command v] →
    Sys2Proof.core.run 5 s =
      exec (.wr 0x20 v) { s with gainDb := g, freq := f, q := q, fs := fs, port := [] }

/-! ### The designs -/

/-- R95, R111 (with R90 to R93 and R112 in `State.peakingCoeffs`): on admitted operands whose five
coefficients are finite, DESIGN.PK writes them and STATUS = 0x100, and nothing else. -/
def Obligations.PeakingDesignCompletes : Prop :=
  ∀ (s : State), OperandsAdmitted s.freq s.q s.fs → s.peakingCoeffs.allFinite = true →
    exec .designPk s = .next (s.succeeded s.peakingCoeffs)

/-- R95 (with R90 to R93 and R121 in `State.lowPassCoeffs`): on admitted operands whose five
coefficients are finite, DESIGN.LP writes them and STATUS = 0x100, and nothing else. -/
def Obligations.LowPassDesignCompletes : Prop :=
  ∀ (s : State), OperandsAdmitted s.freq s.q s.fs → s.lowPassCoeffs.allFinite = true →
    exec .designLp s = .next (s.succeeded s.lowPassCoeffs)

/-- R84: ±0, any negative value and any NaN in FS. -/
def Obligations.SampleRateNotPositiveFails : Prop :=
  ∀ (i : Instr) (s : State), IsCommand i →
    (flt 0x0000000000000000 s.fs = false ↔ isZero s.fs = true ∨ signOf s.fs = true ∨ isNaN s.fs = true) ∧
    (flt 0x0000000000000000 s.fs = false → exec i s = .next (s.failedWith 0x0000000000000032))

/-- R85: +infinity in FS. -/
def Obligations.InfiniteSampleRateFails : Prop :=
  ∀ (i : Instr) (s : State), IsCommand i → s.fs = 0x7FF0000000000000 →
    exec i s = .next (s.failedWith 0x0000000000000042)

/-- R86: a frequency outside (0, fs / 2), once the sample rate has passed. -/
def Obligations.FrequencyOutOfRangeFails : Prop :=
  ∀ (i : Instr) (s : State), IsCommand i →
    flt 0x0000000000000000 s.fs = true → isFinite s.fs = true →
    ¬(flt 0x0000000000000000 s.freq = true ∧ flt s.freq (fdiv s.fs 0x4000000000000000) = true) →
    exec i s = .next (s.failedWith 0x0000000000000051)

/-- R87: ±0, any negative value and any NaN in Q, once sample rate and frequency have passed. -/
def Obligations.QNotPositiveFails : Prop :=
  ∀ (i : Instr) (s : State), IsCommand i →
    (flt 0x0000000000000000 s.q = false ↔ isZero s.q = true ∨ signOf s.q = true ∨ isNaN s.q = true) ∧
    (flt 0x0000000000000000 s.fs = true → isFinite s.fs = true →
      flt 0x0000000000000000 s.freq = true → flt s.freq (fdiv s.fs 0x4000000000000000) = true →
      flt 0x0000000000000000 s.q = false → exec i s = .next (s.failedWith 0x0000000000000061))

/-- R88: +infinity in Q, once sample rate and frequency have passed. -/
def Obligations.InfiniteQFails : Prop :=
  ∀ (i : Instr) (s : State), IsCommand i →
    flt 0x0000000000000000 s.fs = true → isFinite s.fs = true →
    flt 0x0000000000000000 s.freq = true → flt s.freq (fdiv s.fs 0x4000000000000000) = true →
    s.q = 0x7FF0000000000000 → exec i s = .next (s.failedWith 0x0000000000000071)

/-- R94: a non-finite coefficient after the operand checks. -/
def Obligations.NonFiniteResultFails : Prop :=
  ∀ (s : State), OperandsAdmitted s.freq s.q s.fs →
    (s.peakingCoeffs.allFinite = false → exec .designPk s = .next (s.failedWith 0x0000000000000081)) ∧
    (s.lowPassCoeffs.allFinite = false → exec .designLp s = .next (s.failedWith 0x0000000000000081))

/-- R143, R142: a command of any word completes, and its STATUS is that of the first condition that
applies in the order of R143. -/
def Obligations.FirstFailingCheckDecidesTheStatus : Prop :=
  ∀ (v : Word) (s : State), ∃ t, exec (.wr 0x20 v) s = .next t ∧ t.status =
    if 4 ≤ v.toNat then 0x0000000000000023
    else if 2 ≤ v.toNat then 0x0000000000000013
    else if flt 0x0000000000000000 s.fs = false then 0x0000000000000032
    else if isFinite s.fs = false then 0x0000000000000042
    else if flt 0x0000000000000000 s.freq = false ∨ flt s.freq (fdiv s.fs 0x4000000000000000) = false then
      0x0000000000000051
    else if flt 0x0000000000000000 s.q = false then 0x0000000000000061
    else if isFinite s.q = false then 0x0000000000000071
    else if (if v.toNat = 0 then s.peakingCoeffs else s.lowPassCoeffs).allFinite = false then
      0x0000000000000081
    else 0x0000000000000100

/-- R96, R142: every failure, of any command word, leaves +0.0 in the five results and the word of one
of the eight causes in STATUS, with VALID = 0, and changes nothing else. -/
def Obligations.FailureWritesStatusAndClearsResultsOnly : Prop :=
  ∀ (v : Word) (s t : State), exec (.wr 0x20 v) s = .next t → t.status ≠ 0x0000000000000100 →
    ∃ e : Cause, e ≠ .none ∧ validField t.status = false ∧ causeField t.status = causeBits e ∧
      codeField t.status = codeBits (causeCode e) ∧
      t = s.failedWith (BitVec.ofNat 64 (16 * (causeBits e).toNat + (codeBits (causeCode e)).toNat))

/-- R97: a command, whatever its word and its outcome, keeps the four operand registers. That the port
and the last value read stay too is the model's own (log entries 1 and 2: these fields are no state of
BQD). -/
def Obligations.CommandsKeepTheOperands : Prop :=
  ∀ (i : Instr) (v : Word) (s t : State), IsCommand i ∨ i = .wr 0x20 v → exec i s = .next t →
    t.gainDb = s.gainDb ∧ t.freq = s.freq ∧ t.q = s.q ∧ t.fs = s.fs ∧
    t.port = s.port ∧ t.readData = s.readData

/-- R98: the word and the four operands decide STATUS and the five results; nothing else does. -/
def Obligations.CommandsDependOnTheOperandsAlone : Prop :=
  ∀ (v : Word) (s s' : State),
    s.gainDb = s'.gainDb → s.freq = s'.freq → s.q = s'.q → s.fs = s'.fs →
    ∃ t t', exec (.wr 0x20 v) s = .next t ∧ exec (.wr 0x20 v) s' = .next t' ∧
      t.status = t'.status ∧ t.results = t'.results

/-- R98, BUS-13 of 95_test_vectors.md: performing the same command a second time changes nothing. -/
def Obligations.RepeatedCommandChangesNothing : Prop :=
  ∀ (v : Word) (s t : State), exec (.wr 0x20 v) s = .next t → exec (.wr 0x20 v) t = .next t

/-- R122: two DESIGN.LP with the same FREQ, Q and FS write the same STATUS and results, whatever
GAIN_DB holds. -/
def Obligations.LowPassIgnoresTheGain : Prop :=
  ∀ (s s' : State), s.freq = s'.freq → s.q = s'.q → s.fs = s'.fs →
    ∃ t t', exec .designLp s = .next t ∧ exec .designLp s' = .next t' ∧
      t.status = t'.status ∧ t.results = t'.results

/-- R113: after a successful DESIGN.PK, B1 and A1 are the same word. -/
def Obligations.PeakingB1EqualsA1 : Prop :=
  ∀ (s t : State), exec .designPk s = .next t → t.status = 0x0000000000000100 → t.b1 = t.a1

/-- R114: a successful DESIGN.PK at a gain of ±0 dB is a unity filter. -/
def Obligations.PeakingAtZeroGainIsUnity : Prop :=
  ∀ (s t : State), s.gainDb = 0x0000000000000000 ∨ s.gainDb = 0x8000000000000000 →
    exec .designPk s = .next t → t.status = 0x0000000000000100 →
    t.b0 = 0x3FF0000000000000 ∧ t.b1 = t.a1 ∧ t.b2 = t.a2

/-- R115: once the operand checks pass, an amplitude that is NaN, +infinity or +0 fails the peaking
design; a gain that is NaN or infinite gives such an amplitude. -/
def Obligations.ExtremeAmplitudeFailsPeaking : Prop :=
  ∀ (s : State), OperandsAdmitted s.freq s.q s.fs →
    (isNaN (openMath.fpow10 (fdiv s.gainDb 0x4044000000000000)) = true ∨
      openMath.fpow10 (fdiv s.gainDb 0x4044000000000000) = 0x7FF0000000000000 ∨
      openMath.fpow10 (fdiv s.gainDb 0x4044000000000000) = 0x0000000000000000 →
        exec .designPk s = .next (s.failedWith 0x0000000000000081)) ∧
    (isFinite s.gainDb = false → exec .designPk s = .next (s.failedWith 0x0000000000000081))

/-- R123: after a successful DESIGN.LP, B0 = B2, and B0 is exactly half of B1 when |B1| is at least
2^-1021 or B1 is +0. The second part says the same of a low-pass design under any choice of the open
functions whose cosine lies in [-1, 1], as R100 requires. -/
def Obligations.LowPassB0IsHalfOfB1 : Prop :=
  (∀ (s t : State), exec .designLp s = .next t → t.status = 0x0000000000000100 →
    t.b0 = t.b2 ∧
    (0x0020000000000000 ≤ magOf t.b1 ∨ t.b1 = 0x0000000000000000 → 2 * valueOf t.b0 = valueOf t.b1)) ∧
  (∀ (M : MathLib) (f q fs : Word) (c : Coeffs), inUnit (M.fcos (angle f fs)) = true →
    lowPassDesign M f q fs = .commit c →
    c.b0 = c.b2 ∧
    (0x0020000000000000 ≤ magOf c.b1 ∨ c.b1 = 0x0000000000000000 → 2 * valueOf c.b0 = valueOf c.b1))

/-- R124, under its own closing condition that alpha is finite and not negative: then, with a finite
w0, DESIGN.LP succeeds on admitted operands. (The open functions may give a negative sine, so the
condition is a hypothesis.) -/
def Obligations.LowPassSucceedsOnFiniteAlpha : Prop :=
  ∀ (s : State), OperandsAdmitted s.freq s.q s.fs →
    isFinite (fdiv (fmul 0x401921FB54442D18 s.freq) s.fs) = true →
    isFinite (fdiv (openMath.fsin (fdiv (fmul 0x401921FB54442D18 s.freq) s.fs))
      (fmul 0x4000000000000000 s.q)) = true →
    flt (fdiv (openMath.fsin (fdiv (fmul 0x401921FB54442D18 s.freq) s.fs))
      (fmul 0x4000000000000000 s.q)) 0x0000000000000000 = false →
    exec .designLp s = .next (s.succeeded s.lowPassCoeffs)

/-- R103: where w0 underflows to +0.0, both designs succeed with the coefficients the rule gives (the
peaking one for an amplitude that is finite and not zero). -/
def Obligations.VanishingAngleDesigns : Prop :=
  ∀ (s : State), OperandsAdmitted s.freq s.q s.fs →
    fdiv (fmul 0x401921FB54442D18 s.freq) s.fs = 0x0000000000000000 →
    (isFinite (openMath.fpow10 (fdiv s.gainDb 0x4044000000000000)) = true →
      isZero (openMath.fpow10 (fdiv s.gainDb 0x4044000000000000)) = false →
      exec .designPk s = .next (s.succeeded ⟨0x3FF0000000000000, 0xC000000000000000,
        0x3FF0000000000000, 0xC000000000000000, 0x3FF0000000000000⟩)) ∧
    exec .designLp s = .next (s.succeeded ⟨0x0000000000000000, 0x0000000000000000,
      0x0000000000000000, 0xC000000000000000, 0x3FF0000000000000⟩)

/-- R89: the boundary cases of the operand checks. Operands are admitted when the command itself ends in
success or in the failure of the result check, STATUS 0x100 or 0x81 (`Admits`). -/
def Obligations.OperandCheckBoundaries : Prop :=
  ∀ (i : Instr) (s : State), IsCommand i →
    (flt 0x0000000000000000 s.fs = true → isFinite s.fs = true → s.freq = fdiv s.fs 0x4000000000000000 →
      exec i s = .next (s.failedWith 0x0000000000000051)) ∧
    (s.freq = 0x40D5887FFFFFFFFF → s.fs = 0x40E5888000000000 →
      flt 0x0000000000000000 s.q = true → isFinite s.q = true →
      OperandsAdmitted s.freq s.q s.fs ∧ Admits i s) ∧
    (flt 0x0000000000000000 s.fs = true → isFinite s.fs = true →
      isZero s.freq = true ∨ signOf s.freq = true ∨ isFinite s.freq = false →
      exec i s = .next (s.failedWith 0x0000000000000051)) ∧
    (fdiv 0x0000000000000001 0x4000000000000000 = 0x0000000000000000 ∧
      (s.fs = 0x0000000000000001 → exec i s = .next (s.failedWith 0x0000000000000051))) ∧
    (isNaN s.fs = true → exec i s = .next (s.failedWith 0x0000000000000032)) ∧
    (∀ f q q', Admits i { s with freq := f, q := q } → flt 0x0000000000000000 q' = true →
      isFinite q' = true → Admits i { s with freq := f, q := q' }) ∧
    (∀ f q f' q', Admits i { s with freq := f, q := q } → Admits i { s with freq := f', q := q' } →
      Admits i { s with freq := f, q := q' })

/-! ### Reset, STATUS and invariants -/

/-- R35, R180: the reset value of every register; the reset event gives the same values and performs
no command; and it is the only way to put STATUS back to 0. That what waits behind the reset event and
the last value read stay is the model's choice (log entries 1, 2 and 11). -/
def Obligations.ResetClearsEveryRegister : Prop :=
  (State.reset.gainDb = 0 ∧ State.reset.freq = 0 ∧ State.reset.q = 0 ∧ State.reset.fs = 0 ∧
    State.reset.status = 0 ∧ State.reset.b0 = 0 ∧ State.reset.b1 = 0 ∧ State.reset.b2 = 0 ∧
    State.reset.a1 = 0 ∧ State.reset.a2 = 0) ∧
  (∀ (s : State) (rest : List PortEvent), s.port = .reset :: rest →
    step s = .next { gainDb := 0, freq := 0, q := 0, fs := 0, status := 0, b0 := 0, b1 := 0, b2 := 0,
                     a1 := 0, a2 := 0, port := rest, readData := s.readData }) ∧
  ∀ (s t : State), step s = .next t → t.status = 0 → s.status ≠ 0 → ∃ rest, s.port = .reset :: rest

/-- R183: a command issued straight after reset fails with FS_NOT_POSITIVE. -/
def Obligations.FirstCommandAfterResetFails : Prop :=
  ∀ (i : Instr), IsCommand i → exec i State.reset = .next { State.reset with status := 0x0000000000000032 }

/-- R35, R65: the reset state meets the register invariant. -/
def Obligations.ResetIsSound : Prop := State.reset.Sound

/-- R26, R27, R29, R64, R65: in every state a step leaves, STATUS is a legal word, no result is a NaN
or an infinity, and the results are +0.0 unless STATUS says success. -/
def Obligations.StepKeepsSound : Prop :=
  ∀ (s t : State), s.Sound → step s = .next t → t.Sound

/-- R27: only a command or a reset changes STATUS; and only these change a result register (R26). -/
def Obligations.StatusAndResultsChangeOnlyByCommandOrReset : Prop :=
  ∀ (s t : State), step s = .next t → t.status ≠ s.status ∨ t.results ≠ s.results →
    ∃ rest, s.port = .reset :: rest ∨ (∃ v, s.port = .command v :: rest) ∨
      ∃ v, s.port = .access ⟨true, 0x20, 8, v⟩ :: rest

/-- R21, R97: an operand register changes only by a write to its own offset or by a reset. -/
def Obligations.OperandsChangeOnlyByTheirWriteOrReset : Prop :=
  ∀ (s t : State) (rest : List PortEvent) (e : PortEvent), s.port = e :: rest → e ≠ .reset →
    step s = .next t →
    (t.gainDb ≠ s.gainDb → e = .access ⟨true, 0x00, 8, t.gainDb⟩) ∧
    (t.freq ≠ s.freq → e = .access ⟨true, 0x08, 8, t.freq⟩) ∧
    (t.q ≠ s.q → e = .access ⟨true, 0x10, 8, t.q⟩) ∧
    (t.fs ≠ s.fs → e = .access ⟨true, 0x18, 8, t.fs⟩)

/-- R28: the fields of STATUS after a command of any word; VALID is 0 after reset. -/
def Obligations.StatusFieldsAfterACommand : Prop :=
  validField State.reset.status = false ∧
  ∀ (v : Word) (s : State), ∃ t, exec (.wr 0x20 v) s = .next t ∧
    ((t.status = 0x0000000000000100 ∧ codeField t.status = 0 ∧ causeField t.status = 0 ∧
        validField t.status = true) ∨
      (codeField t.status ≠ 0 ∧ causeField t.status ≠ 0 ∧ validField t.status = false))

/-! ### The platform -/

/-- R152: a step of one instance leaves every other instance as it was. -/
def Obligations.InstancesShareNothing : Prop :=
  ∀ (k : Nat) (p p' : List State), platformStep k p = .next p' →
    p'.length = p.length ∧ ∀ j, j ≠ k → p'[j]? = p[j]?

/-- R40, R44, R152, and log entries 12 and 14 (the model's numbering of the instances, and that the
start address alone decides): each base is a multiple of 128; no address lies in the windows of two
instances; the 128 addresses from a base up are that instance's, at the offset address minus base; and
an access joins the port of the instance whose window holds its address, and leaves every other
instance as it was. -/
def Obligations.WindowsAreDisjoint : Prop :=
  (∀ k, bqdBase k % 128 = 0) ∧
  (∀ (b : BusAccess) (j k : Nat), j ≠ k → routeTo j b ≠ none → routeTo k b = none) ∧
  (∀ (k : Nat) (w : Bool) (off : Offset) (size : Nat) (v : Word),
    routeTo k ⟨w, bqdBase k + off.toNat, size, v⟩ = some ⟨w, off, size, v⟩) ∧
  (∀ (b : BusAccess) (p : List State) (k : Nat) (s : State) (a : Access), p[k]? = some s →
    routeTo k b = some a → (platformDeliver b p)[k]? = some (s.present [a])) ∧
  (∀ (b : BusAccess) (p : List State) (j k : Nat) (s : State), routeTo k b ≠ none → j ≠ k →
    p[j]? = some s → (platformDeliver b p)[j]? = some s)

/-- R44, R45: `MemRead(BQD_BASE + off, 8)` and `MemWrite(BQD_BASE + off, 8, v)` are RD and WR at `off`
of the instance with that base, when nothing waits at its port before them. -/
def Obligations.BusAddressReachesItsRegister : Prop :=
  ∀ (p : List State) (k : Nat) (s : State) (off : Offset) (v : Word), p[k]? = some s → s.port = [] →
    off.toNat % 8 = 0 →
    (∀ t, exec (.rd off) s = .next t →
      platformStep k (platformDeliver ⟨false, bqdBase k + off.toNat, 8, v⟩ p) = .next (p.set k t)) ∧
    (∀ t, exec (.wr off v) s = .next t →
      platformStep k (platformDeliver ⟨true, bqdBase k + off.toNat, 8, v⟩ p) = .next (p.set k t))

/-! ### Arithmetic -/

/-- R12, R99: each operation on finite operands gives the binary64 value nearest the exact result,
ties to even, subnormals kept, with an infinity on overflow. -/
def Obligations.ArithmeticRoundsToNearestEven : Prop :=
  ∀ (a b : Word), isFinite a = true → isFinite b = true →
    RoundsTo ((valueOf a : ℝ) + valueOf b) (fadd a b) ∧
    RoundsTo ((valueOf a : ℝ) - valueOf b) (fsub a b) ∧
    RoundsTo ((valueOf a : ℝ) * valueOf b) (fmul a b) ∧
    (isZero b = false → RoundsTo ((valueOf a : ℝ) / valueOf b) (fdiv a b))

/-- D4: correct rounding is unique. Two words that round the same number stand for the same value. -/
def Obligations.CorrectRoundingIsUnique : Prop :=
  ∀ (r : ℝ) (w w' : Word), RoundsTo r w → RoundsTo r w' →
    w = w' ∨ (isFinite w = true ∧ isFinite w' = true ∧ valueOf w = valueOf w')

/-- R12: the ordered comparison of finite values is the order of the numbers they stand for, and any
comparison with a NaN is false. -/
def Obligations.ComparisonIsTheOrderOfValues : Prop :=
  ∀ (a b : Word),
    (isFinite a = true → isFinite b = true → (flt a b = true ↔ valueOf a < valueOf b)) ∧
    (isNaN a = true ∨ isNaN b = true → flt a b = false) ∧
    (isFinite a = true → flt a 0x7FF0000000000000 = true ∧ flt 0xFFF0000000000000 a = true ∧
      flt 0x7FF0000000000000 a = false ∧ flt a 0xFFF0000000000000 = false)

/-- R99: the default results of the operations on NaN, infinite and zero operands, and exact
negation. -/
def Obligations.SpecialOperandResults : Prop :=
  ∀ (a b : Word),
    (isNaN a = true ∨ isNaN b = true →
      isNaN (fadd a b) = true ∧ isNaN (fsub a b) = true ∧ isNaN (fmul a b) = true ∧ isNaN (fdiv a b) = true) ∧
    (isFinite a = true → isZero a = false → isZero b = true →
      isInf (fdiv a b) = true ∧ signOf (fdiv a b) = (signOf a ^^ signOf b)) ∧
    (isZero a = true → isZero b = true → isNaN (fdiv a b) = true) ∧
    (isInf a = true → isInf b = true → isNaN (fdiv a b) = true ∧
      (signOf a = signOf b → isNaN (fsub a b) = true) ∧ (signOf a ≠ signOf b → isNaN (fadd a b) = true)) ∧
    (isZero a = true → isInf b = true → isNaN (fmul a b) = true ∧ isNaN (fmul b a) = true) ∧
    (isFinite a = true → isFinite b = true → signOf a ≠ signOf b → valueOf a + valueOf b = 0 →
      fadd a b = 0x0000000000000000) ∧
    (isFinite a = true → isFinite b = true → signOf a = signOf b → valueOf a = valueOf b →
      fsub a b = 0x0000000000000000) ∧
    (signOf (fneg a) = !signOf a ∧ magOf (fneg a) = magOf a)

/-- R99: doubling is exact unless it overflows, and halving unless it leaves the normal range. -/
def Obligations.DoublingAndHalvingAreExact : Prop :=
  ∀ (a : Word), isFinite a = true →
    (isFinite (fmul 0x4000000000000000 a) = true →
      valueOf (fmul 0x4000000000000000 a) = 2 * valueOf a) ∧
    (0x0020000000000000 ≤ magOf a → 2 * valueOf (fdiv a 0x4000000000000000) = valueOf a)

/-- R112: `-(2 × c)` equals `(-2) × c` bit for bit, for every c that is no NaN. -/
def Obligations.MinusTwiceIsTimesMinusTwo : Prop :=
  ∀ (c : Word), isNaN c = false → fneg (fmul 0x4000000000000000 c) = fmul 0xC000000000000000 c

/-- R100, R101, and log entries 4 and 5 (how 10^y being out of range is decided): the open functions
have the required properties. -/
def Obligations.OpenFunctionsHaveTheRequiredProperties : Prop := LawfulMath openMath

/-- R100, R101, D4, and log entries 4 and 5 (the model's thresholds for leaving the range of 10^y, and
+0 for y of at most -324, where R101 property 4 alone would allow a subnormal): the open functions are
held to no more than R100, R101 and those two entries. From any choice that has these properties the
model's construction gives that choice back, up to which NaN a NaN is. -/
def Obligations.EveryLawfulChoiceIsCovered : Prop :=
  ∀ (M : MathLib), LawfulMath M → ∀ x : Word,
    (sinOf M.fsin x = M.fsin x ∨ (isNaN (sinOf M.fsin x) = true ∧ isNaN (M.fsin x) = true)) ∧
    (cosOf M.fcos x = M.fcos x ∨ (isNaN (cosOf M.fcos x) = true ∧ isNaN (M.fcos x) = true)) ∧
    (pow10Of M.fpow10 x = M.fpow10 x ∨ (isNaN (pow10Of M.fpow10 x) = true ∧ isNaN (M.fpow10 x) = true))

/-! ### The failing half of R124 -/

/-- R90, R124, and ERR-25 to ERR-27 of 95_test_vectors.md: on admitted operands either command fails
with RESULT_NOT_FINITE when w0 or alpha is not finite. The last part says it of both designs under any
choice of the open functions. -/
def Obligations.NonFiniteAngleOrAlphaFails : Prop :=
  (∀ (i : Instr) (s : State), IsCommand i → OperandsAdmitted s.freq s.q s.fs →
    isFinite (fdiv (fmul 0x401921FB54442D18 s.freq) s.fs) = false ∨
      isFinite (fdiv (openMath.fsin (fdiv (fmul 0x401921FB54442D18 s.freq) s.fs))
        (fmul 0x4000000000000000 s.q)) = false →
    exec i s = .next (s.failedWith 0x0000000000000081)) ∧
  (∀ (M : MathLib) (g f q fs : Word), OperandsAdmitted f q fs →
    isFinite (alphaOf (M.fsin (angle f fs)) q) = false →
    peakingDesign M g f q fs = .fail .resultNotFinite ∧
    lowPassDesign M f q fs = .fail .resultNotFinite)
end

