-- ==== Sys2Proof/Laws/Decode.lean ====
section
/-! SUPPORT. Words and their bytes, descriptors, command words: what decoding and encoding do. -/

namespace Sys2Proof

/-! ### Words and bytes -/

@[simp] theorem length_bytesOfNat (k n : Nat) : (bytesOfNat k n).length = k := by
  induction k generalizing n with
  | zero => rfl
  | succ k ih => simp [bytesOfNat, ih]

theorem natOfBytes_lt (bs : List Byte) : natOfBytes bs < 256 ^ bs.length := by
  induction bs with
  | nil => simp [natOfBytes]
  | cons b bs ih =>
    have := b.isLt
    simp only [natOfBytes, List.length_cons, pow_succ]
    omega

theorem natOfBytes_bytesOfNat (k n : Nat) : natOfBytes (bytesOfNat k n) = n % 256 ^ k := by
  induction k generalizing n with
  | zero => simp [bytesOfNat, natOfBytes, Nat.mod_one]
  | succ k ih =>
    simp only [bytesOfNat, natOfBytes, ih, BitVec.toNat_ofNat]
    rw [show 256 ^ (k + 1) = 256 * 256 ^ k from pow_succ' 256 k, Nat.mod_mul]

theorem bytesOfNat_natOfBytes (bs : List Byte) : bytesOfNat bs.length (natOfBytes bs) = bs := by
  induction bs with
  | nil => rfl
  | cons b bs ih =>
    have hb := b.isLt
    have h1 : (b.toNat + 256 * natOfBytes bs) / 256 = natOfBytes bs := by omega
    have h2 : BitVec.ofNat 8 (b.toNat + 256 * natOfBytes bs) = b := by
      apply BitVec.eq_of_toNat_eq
      rw [BitVec.toNat_ofNat]
      omega
    simp only [natOfBytes, List.length_cons, bytesOfNat, h1, h2, ih]

@[simp] theorem length_littleEndian (v : Word) : (littleEndian v).length = 8 := length_bytesOfNat 8 _

/-- A word is read back from its bytes. -/
@[simp] theorem ofLittleEndian_littleEndian (v : Word) : ofLittleEndian (littleEndian v) = v := by
  apply BitVec.eq_of_toNat_eq
  unfold ofLittleEndian littleEndian
  rw [natOfBytes_bytesOfNat, BitVec.toNat_ofNat]
  have := v.isLt
  omega

/-- Eight bytes are the bytes of the word they make. -/
theorem littleEndian_ofLittleEndian {bs : List Byte} (h : bs.length = 8) :
    littleEndian (ofLittleEndian bs) = bs := by
  have hlt := natOfBytes_lt bs
  rw [h] at hlt
  unfold littleEndian ofLittleEndian
  rw [BitVec.toNat_ofNat, Nat.mod_eq_of_lt (by omega)]
  conv_rhs => rw [← bytesOfNat_natOfBytes bs, h]

/-! ### Descriptors (R70) -/

@[simp] theorem msb_descriptor (isWrite : Bool) (off : Offset) : (descriptor isWrite off).msb = isWrite := by
  cases isWrite <;> revert off <;> decide

@[simp] theorem setWidth_descriptor (isWrite : Bool) (off : Offset) :
    (descriptor isWrite off).setWidth 7 = off := by
  cases isWrite <;> revert off <;> decide

theorem descriptor_msb_setWidth (d : Byte) : descriptor d.msb (d.setWidth 7) = d := by
  revert d
  decide

/-- A listing that begins with a read. -/
theorem readListing_read (off : Offset) (rest : List Byte) :
    readListing (descriptor false off :: rest) = some (⟨false, off, 8, 0⟩, rest) := by
  simp [readListing]

/-- A listing that begins with a write. -/
theorem readListing_write (off : Offset) (data : Word) (rest : List Byte) :
    readListing (descriptor true off :: ((littleEndian data).reverse ++ rest)) =
      some (⟨true, off, 8, data⟩, rest) := by
  have h1 : ((littleEndian data).reverse ++ rest).take 8 = (littleEndian data).reverse :=
    List.take_left' (by simp)
  have h2 : ((littleEndian data).reverse ++ rest).drop 8 = rest := List.drop_left' (by simp)
  simp [readListing, h1, h2]

/-- The bytes of the access a listing begins with. -/
theorem readListing_some {bytes rest : List Byte} {a : Access} (h : readListing bytes = some (a, rest)) :
    a.size = 8 ∧ bytes = (descriptor a.isWrite a.off ::
      if a.isWrite then (littleEndian a.data).reverse else []) ++ rest := by
  unfold readListing at h
  split at h
  · cases h
  · rename_i d tl
    have hd := descriptor_msb_setWidth d
    dsimp only at h
    split at h
    · rename_i hm
      rw [hm] at hd
      split at h
      · cases h
      · have hlen : (tl.take 8).reverse.length = 8 := by simp; omega
        cases h
        exact ⟨rfl, by simp [hd, littleEndian_ofLittleEndian hlen]⟩
    · rename_i hm
      rw [Bool.not_eq_true] at hm
      rw [hm] at hd
      cases h
      exact ⟨rfl, by simp [hd]⟩

/-! ### Command words (R61) -/

@[simp] theorem decodeWord_zero : decodeWord 0#64 = .ok .peaking := by decide

@[simp] theorem decodeWord_one : decodeWord 1#64 = .ok .lowPass := by decide

/-- A command word is legal exactly when it is one of the two. -/
theorem decodeWord_ok {v : Word} {c : Command} (h : decodeWord v = .ok c) :
    (v = 0 ∧ c = .peaking) ∨ (v = 1 ∧ c = .lowPass) := by
  have hlow : ∀ k : Nat, k < 4 → v.extractLsb' 2 62 = 0 → v.extractLsb' 0 2 = BitVec.ofNat 2 k →
      v = BitVec.ofNat 64 k := by
    intro k hk h1 h2
    have e1 := congrArg BitVec.toNat h1
    have e2 := congrArg BitVec.toNat h2
    simp [BitVec.extractLsb'_toNat, Nat.shiftRight_eq_div_pow] at e1 e2
    apply BitVec.eq_of_toNat_eq
    rw [BitVec.toNat_ofNat]
    have := v.isLt
    omega
  unfold decodeWord at h
  split at h
  · cases h
  · rename_i h1
    rw [not_not] at h1
    split at h
    · rename_i h2
      cases h
      exact .inl ⟨hlow 0 (by decide) h1 h2, rfl⟩
    · split at h
      · rename_i h2
        cases h
        exact .inr ⟨hlow 1 (by decide) h1 h2, rfl⟩
      · cases h

/-- A word with a reserved bit set is as a number at least 4. -/
theorem decodeWord_reserved {v : Word} (h : 4 ≤ v.toNat) : decodeWord v = .error .reservedBits := by
  unfold decodeWord
  rw [if_pos]
  intro e
  have e1 := congrArg BitVec.toNat e
  simp [BitVec.extractLsb'_toNat, Nat.shiftRight_eq_div_pow] at e1
  have := v.isLt
  omega

/-- The instruction of a legal command word (R66). -/
theorem decodeCommand_ok {v : Word} {i : Instr} (h : decodeCommand v = .ok i) :
    (v = 0 ∧ i = .designPk) ∨ (v = 1 ∧ i = .designLp) := by
  unfold decodeCommand at h
  split at h
  · rename_i c hc
    cases h
    rcases decodeWord_ok hc with ⟨rfl, rfl⟩ | ⟨rfl, rfl⟩
    · exact .inl ⟨rfl, rfl⟩
    · exact .inr ⟨rfl, rfl⟩
  · cases h

/-- The instruction of a legal access (R42). -/
theorem decodeAccess_ok {a : Access} {i : Instr} (h : decodeAccess a = .ok i) :
    a.size = 8 ∧ Offset.aligned a.off = true ∧ i = (if a.isWrite then .wr a.off a.data else .rd a.off) := by
  unfold decodeAccess at h
  split at h
  · cases h
  · rename_i h1
    rw [not_not] at h1
    split at h
    · cases h
    · rename_i h2
      refine ⟨h1, by simpa using h2, ?_⟩
      split at h <;> cases h <;> simp [*]

end Sys2Proof
end

