-- ==== Sys2Proof/Laws/Float.lean ====
section
/-! SUPPORT. What packing, magnitudes and rounding do: the lemmas the float statements are built on. -/

namespace Sys2Proof.Machine

/-! ### Packing -/

theorem magOf_lt (x : Word) : magOf x < 2 ^ 63 := Nat.mod_lt _ (by norm_num)

theorem toNat_pack (neg : Bool) {mag : Nat} (h : mag < 2 ^ 63) :
    (pack neg mag).toNat = mag + (if neg then 2 ^ 63 else 0) := by
  unfold pack
  rw [BitVec.toNat_ofNat]
  cases neg <;> simp <;> omega

theorem magOf_pack (neg : Bool) {mag : Nat} (h : mag < 2 ^ 63) : magOf (pack neg mag) = mag := by
  unfold magOf
  rw [toNat_pack neg h]
  cases neg <;> simp <;> omega

theorem signOf_eq (x : Word) : signOf x = decide (2 ^ 63 ≤ x.toNat) := by
  unfold signOf
  rw [BitVec.msb_eq_decide]

theorem signOf_pack (neg : Bool) {mag : Nat} (h : mag < 2 ^ 63) : signOf (pack neg mag) = neg := by
  rw [signOf_eq, toNat_pack neg h]
  cases neg
  · simp
    omega
  · simp

theorem pack_sign_mag (x : Word) : pack (signOf x) (magOf x) = x := by
  apply BitVec.eq_of_toNat_eq
  rw [toNat_pack _ (magOf_lt x), signOf_eq]
  have := x.isLt
  unfold magOf
  by_cases h : 2 ^ 63 ≤ x.toNat
  · rw [decide_eq_true h, if_pos rfl]
    omega
  · rw [decide_eq_false h, if_neg (by decide)]
    omega

/-- A word is its sign and its magnitude bits. -/
theorem word_ext {x y : Word} (hs : signOf x = signOf y) (hm : magOf x = magOf y) : x = y := by
  rw [← pack_sign_mag x, ← pack_sign_mag y, hs, hm]

/-- The lowest bit of a word is that of its magnitude. -/
theorem getLsbD_zero_eq (x : Word) : x.getLsbD 0 = decide (magOf x % 2 = 1) := by
  rw [BitVec.getLsbD, Nat.testBit_zero]
  unfold magOf
  congr 1
  rw [eq_iff_iff]
  omega

/-! ### What finite magnitude bits stand for -/

/-- k binades up, r units of 2^k. The significand may be one that carries into the next binade. -/
theorem magValue_binade {k r : Nat} (h : k = 0 ∨ 2 ^ 52 ≤ r) (hr : r ≤ 2 ^ 53) :
    magValue (k * 2 ^ 52 + r) = 2 ^ k * r := by
  unfold magValue
  rcases Nat.lt_or_ge r (2 ^ 52) with h1 | h1
  · obtain rfl : k = 0 := by omega
    rw [zero_mul, zero_add, pow_zero, one_mul, if_pos (Nat.div_eq_of_lt h1), Nat.mod_eq_of_lt h1]
  · rcases Nat.lt_or_ge r (2 ^ 53) with h2 | h2
    · have e : (k * 2 ^ 52 + r) / 2 ^ 52 = k + 1 := by omega
      have f : (k * 2 ^ 52 + r) % 2 ^ 52 = r - 2 ^ 52 := by omega
      have g : 2 ^ 52 + (r - 2 ^ 52) = r := by omega
      rw [e, f, if_neg (Nat.succ_ne_zero k), Nat.add_sub_cancel, g]
    · obtain rfl : r = 2 ^ 53 := by omega
      have e : (k * 2 ^ 52 + 2 ^ 53) / 2 ^ 52 = k + 2 := by omega
      have f : (k * 2 ^ 52 + 2 ^ 53) % 2 ^ 52 = 0 := by omega
      have g : k + 2 - 1 = k + 1 := rfl
      rw [e, f, if_neg (Nat.succ_ne_zero (k + 1)), g, pow_succ]
      ring

/-- Every magnitude is some r below 2^53 units of some 2^k, with r at least 2^52 unless k is 0. -/
theorem mag_binade (mag : Nat) : ∃ k r, mag = k * 2 ^ 52 + r ∧ (k = 0 ∨ 2 ^ 52 ≤ r) ∧ r < 2 ^ 53 := by
  rcases Nat.lt_or_ge mag (2 ^ 53) with h | h
  · exact ⟨0, mag, by omega, .inl rfl, h⟩
  · exact ⟨mag / 2 ^ 52 - 1, mag - (mag / 2 ^ 52 - 1) * 2 ^ 52, by omega, .inr (by omega), by omega⟩

/-- Between two neighbouring magnitudes the value grows. -/
theorem magValue_lt_succ (mag : Nat) : magValue mag < magValue (mag + 1) := by
  obtain ⟨k, r, rfl, hk, hr⟩ := mag_binade mag
  rw [magValue_binade hk hr.le, Nat.add_assoc,
    magValue_binade (by omega) (by omega)]
  exact Nat.mul_lt_mul_of_pos_left (by omega) (by positivity)

theorem magValue_strictMono : StrictMono magValue := strictMono_nat_of_lt_succ magValue_lt_succ

theorem magValue_inj {a b : Nat} (h : magValue a = magValue b) : a = b :=
  magValue_strictMono.injective h

theorem magValue_zero : magValue 0 = 0 := by decide

theorem magValue_eq_zero {a : Nat} : magValue a = 0 ↔ a = 0 :=
  ⟨fun h => magValue_inj (h.trans magValue_zero.symm), fun h => h ▸ magValue_zero⟩

/-- The infinity's magnitude bits lie one binade above the finite ones. -/
theorem magValue_infMag : magValue infMag = 2 ^ 2098 := by
  have h : infMag = 2045 * 2 ^ 52 + 2 ^ 53 := by decide
  rw [h, magValue_binade (.inr (by norm_num)) (le_refl _), ← pow_add]

/-- The largest magnitude of binade k + 1. -/
theorem magValue_le {k mag : Nat} (h : mag < (k + 1) * 2 ^ 52 + 2 ^ 53) :
    magValue mag ≤ 2 ^ k * (2 ^ 54 - 2) := by
  have h1 : mag ≤ (k + 1) * 2 ^ 52 + (2 ^ 53 - 1) := by omega
  have h2 := magValue_strictMono.monotone h1
  rw [magValue_binade (.inr (by norm_num)) (by norm_num), pow_succ, mul_assoc] at h2
  exact h2

/-! ### Rounding to an integer -/

/-- `roundHalfEven` is at most half a unit away, and even when it is exactly half a unit away. -/
theorem roundHalfEven_spec (n : Nat) {D : Nat} (hD : 0 < D) :
    2 * |((roundHalfEven n D * D : Nat) : Int) - n| ≤ D ∧
    (2 * |((roundHalfEven n D * D : Nat) : Int) - n| = D → roundHalfEven n D % 2 = 0) := by
  have hn : D * (n / D) + n % D = n := Nat.div_add_mod n D
  have hm : n % D < D := Nat.mod_lt n hD
  unfold roundHalfEven
  split_ifs with h
  · have e : ((n / D * D : Nat) : Int) - n = -((n % D : Nat) : Int) := by
      have : ((n / D * D + n % D : Nat) : Int) = n := by rw [Nat.mul_comm, hn]
      push_cast at this ⊢
      linarith
    rw [e, abs_neg, abs_of_nonneg (by positivity)]
    constructor
    · omega
    · intro h2
      rcases h with h | h
      · omega
      · exact h.2
  · have e : (((n / D + 1) * D : Nat) : Int) - n = ((D - n % D : Nat) : Int) := by
      have : ((n / D * D + n % D : Nat) : Int) = n := by rw [Nat.mul_comm, hn]
      rw [Nat.cast_sub hm.le]
      push_cast at this ⊢
      linarith
    rw [e, abs_of_nonneg (by positivity)]
    constructor
    · omega
    · intro h2
      omega

/-- No integer is nearer than `roundHalfEven`. -/
theorem roundHalfEven_nearest (n : Nat) {D : Nat} (hD : 0 < D) (j : Int) :
    |((roundHalfEven n D * D : Nat) : Int) - n| ≤ |j * D - n| := by
  have h := (roundHalfEven_spec n hD).1
  by_cases hj : j = roundHalfEven n D
  · subst hj
    push_cast
    exact le_refl _
  · have h1 : (D : Int) ≤ |j * D - ((roundHalfEven n D * D : Nat) : Int)| := by
      push_cast
      rw [← sub_mul, abs_mul, Nat.abs_cast]
      have : 1 ≤ |j - (roundHalfEven n D : Int)| := Int.one_le_abs (sub_ne_zero.2 hj)
      nlinarith
    have h2 := abs_sub_abs_le_abs_sub (j * D - ((roundHalfEven n D * D : Nat) : Int))
      ((n : Int) - ((roundHalfEven n D * D : Nat) : Int))
    rw [sub_sub_sub_cancel_right, abs_sub_comm (n : Int)] at h2
    linarith

/-- Another integer is equally near only where the tie went to the even one. -/
theorem roundHalfEven_tie (n : Nat) {D : Nat} (hD : 0 < D) {j : Int}
    (hj : j ≠ roundHalfEven n D)
    (h : |j * D - n| = |((roundHalfEven n D * D : Nat) : Int) - n|) : roundHalfEven n D % 2 = 0 := by
  refine (roundHalfEven_spec n hD).2 (le_antisymm (roundHalfEven_spec n hD).1 ?_)
  have h1 : (D : Int) ≤ |j * D - ((roundHalfEven n D * D : Nat) : Int)| := by
    push_cast
    rw [← sub_mul, abs_mul, Nat.abs_cast]
    have : 1 ≤ |j - (roundHalfEven n D : Int)| := Int.one_le_abs (sub_ne_zero.2 hj)
    nlinarith
  have h2 := abs_sub_abs_le_abs_sub (j * D - ((roundHalfEven n D * D : Nat) : Int))
    ((n : Int) - ((roundHalfEven n D * D : Nat) : Int))
  rw [sub_sub_sub_cancel_right, abs_sub_comm (n : Int), h] at h2
  linarith

/-! ### Rounding to a magnitude -/

/-- The significand at the binade `excess`: at most 2^53, and at least 2^52 unless the binade is 0. -/
theorem excess_spec (n : Nat) {d : Nat} (hd : 0 < d) :
    (excess n d = 0 ∨ 2 ^ 52 ≤ roundHalfEven n (d * 2 ^ excess n d)) ∧
      roundHalfEven n (d * 2 ^ excess n d) ≤ 2 ^ 53 ∧
      (excess n d = 0 ∨ 2 ^ 52 * (d * 2 ^ excess n d) ≤ n) := by
  have hk : 0 < 2 ^ excess n d := by positivity
  have hq : n / (d * 2 ^ excess n d) = n / d / 2 ^ excess n d := by rw [Nat.div_div_eq_div_mul]
  have hlt : n / (d * 2 ^ excess n d) < 2 ^ 53 := by
    rw [hq, Nat.div_lt_iff_lt_mul hk, ← pow_add]
    refine lt_of_lt_of_le Nat.lt_log2_self (Nat.pow_le_pow_right (by norm_num) ?_)
    unfold excess
    omega
  have hge : excess n d = 0 ∨ 2 ^ 52 ≤ n / (d * 2 ^ excess n d) := by
    by_cases h0 : excess n d = 0
    · exact .inl h0
    · right
      have hl : 52 < Nat.log2 (n / d) := by
        unfold excess at h0
        omega
      have hne : n / d ≠ 0 := by
        intro e
        rw [e] at hl
        simp at hl
      rw [hq, Nat.le_div_iff_mul_le hk, ← pow_add]
      refine le_trans (Nat.pow_le_pow_right (by norm_num) ?_) (Nat.log2_self_le hne)
      unfold excess
      omega
  have hr : n / (d * 2 ^ excess n d) ≤ roundHalfEven n (d * 2 ^ excess n d) ∧
      roundHalfEven n (d * 2 ^ excess n d) ≤ n / (d * 2 ^ excess n d) + 1 := by
    unfold roundHalfEven
    split_ifs <;> omega
  refine ⟨?_, by omega, ?_⟩
  · rcases hge with h | h
    · exact .inl h
    · exact .inr (by omega)
  · rcases hge with h | h
    · exact .inl h
    · exact .inr ((Nat.le_div_iff_mul_le (by positivity)).1 h)

/-- The magnitude before the clamp at infinity: a binade k and a significand r, where r is n / d in
units of 2^k, and n / d is at least 2^52 such units unless k is 0. -/
theorem roundMag_parts (n : Nat) {d : Nat} (hd : 0 < d) :
    ∃ k r, roundMag n d = min infMag (k * 2 ^ 52 + r) ∧ r = roundHalfEven n (d * 2 ^ k) ∧
      (k = 0 ∨ 2 ^ 52 ≤ r) ∧ r ≤ 2 ^ 53 ∧ (k = 0 ∨ 2 ^ 52 * (d * 2 ^ k) ≤ n) :=
  ⟨excess n d, _, rfl, rfl, excess_spec n hd⟩

theorem parity_binade (k r : Nat) : (k * 2 ^ 52 + r) % 2 = r % 2 := by omega

/-- The distance, in d-ths of the least subnormal, from the finite magnitude bits to n / d. -/
def distance (n d mag : Nat) : Int := |((magValue mag * d : Nat) : Int) - n|

/-- Where `roundMag` is finite, no magnitude is nearer to n / d, and another equally near one exists
only where the tie went to the even pattern. -/
theorem roundMag_nearest (n : Nat) {d : Nat} (hd : 0 < d) (hfin : roundMag n d < infMag) (mag : Nat) :
    distance n d (roundMag n d) ≤ distance n d mag ∧
    (distance n d mag = distance n d (roundMag n d) → mag ≠ roundMag n d → roundMag n d % 2 = 0) := by
  obtain ⟨k, r, hw, hr, hk, hr53, hn⟩ := roundMag_parts n hd
  have hw' : roundMag n d = k * 2 ^ 52 + r := by omega
  have hD : 0 < d * 2 ^ k := by positivity
  have hdist : distance n d (roundMag n d) = |((r * (d * 2 ^ k) : Nat) : Int) - n| := by
    unfold distance
    rw [hw', magValue_binade hk hr53]
    congr 3
    ring
  obtain ⟨k', r', hm, hk', hr'⟩ := mag_binade mag
  rcases Nat.lt_or_ge k' k with hlt | hge
  · -- a magnitude of a lower binade is farther away than the least one of binade k
    have h0 : k ≠ 0 := by omega
    have hn' : 2 ^ 52 * (d * 2 ^ k) ≤ n := hn.resolve_left h0
    have hlow : magValue mag * d < 2 ^ 52 * (d * 2 ^ k) := by
      have h1 : mag < k * 2 ^ 52 + 2 ^ 52 := by omega
      have h2 := magValue_strictMono h1
      rw [magValue_binade (.inr (le_refl _)) (by norm_num)] at h2
      calc magValue mag * d < 2 ^ k * 2 ^ 52 * d := Nat.mul_lt_mul_of_pos_right h2 hd
        _ = 2 ^ 52 * (d * 2 ^ k) := by ring
    have hstrict : distance n d (roundMag n d) < distance n d mag := by
      have h3 := roundHalfEven_nearest n hD (2 ^ 52 : Int)
      rw [← hr] at h3
      have h4 : |(2 ^ 52 : Int) * ((d * 2 ^ k : Nat) : Int) - n| = n - ((2 ^ 52 * (d * 2 ^ k) : Nat) : Int) := by
        have : ((2 ^ 52 * (d * 2 ^ k) : Nat) : Int) ≤ n := by exact_mod_cast hn'
        rw [abs_sub_comm]
        push_cast at this ⊢
        exact abs_of_nonneg (by linarith)
      have h5 : distance n d mag = n - ((magValue mag * d : Nat) : Int) := by
        unfold distance
        rw [abs_sub_comm]
        exact abs_of_nonneg (by omega)
      omega
    exact ⟨hstrict.le, fun h => absurd h (by omega)⟩
  · -- any other magnitude is a whole number of units of 2^k
    have hval : ((magValue mag * d : Nat) : Int) =
        ((2 ^ (k' - k) * r' : Nat) : Int) * ((d * 2 ^ k : Nat) : Int) := by
      rw [hm, magValue_binade hk' hr'.le, ← Nat.cast_mul, Nat.cast_inj]
      have : 2 ^ k' = 2 ^ (k' - k) * 2 ^ k := by rw [← pow_add, Nat.sub_add_cancel hge]
      rw [this]
      ring
    rw [hdist]
    unfold distance
    rw [hval]
    subst hr
    refine ⟨roundHalfEven_nearest n hD _, fun htie hne => ?_⟩
    have := roundHalfEven_tie n hD (j := ((2 ^ (k' - k) * r' : Nat) : Int)) ?_ htie
    · rw [hw', parity_binade, this]
    · intro he
      apply hne
      apply magValue_inj
      rw [hw', magValue_binade hk hr53, hm, magValue_binade hk' hr'.le]
      have h1 : 2 ^ (k' - k) * r' = roundHalfEven n (d * 2 ^ k) := by exact_mod_cast he
      rw [← h1, ← mul_assoc, ← pow_add, Nat.add_sub_cancel' hge]

/-- `roundHalfEven` in terms of twice the numerator, without a division. -/
theorem roundHalfEven_bounds (n : Nat) {D : Nat} (hD : 0 < D) :
    2 * n ≤ 2 * roundHalfEven n D * D + D ∧ 2 * roundHalfEven n D * D ≤ 2 * n + D ∧
    (2 * n = 2 * roundHalfEven n D * D + D → roundHalfEven n D % 2 = 0) := by
  obtain ⟨h, htie⟩ := roundHalfEven_spec n hD
  have e : 2 * roundHalfEven n D * D = 2 * (roundHalfEven n D * D) := by ring
  rw [e]
  generalize roundHalfEven n D * D = p at *
  refine ⟨?_, ?_, fun ht => htie ?_⟩
  · have := neg_abs_le ((p : Int) - n)
    omega
  · have := le_abs_self ((p : Int) - n)
    omega
  · have h1 : (p : Int) - n ≤ 0 := by omega
    rw [abs_of_nonpos h1]
    omega

/-- `roundMag` gives an infinity exactly from the midpoint of the largest finite magnitude and 2^1024
on: 2^2098 - 2^2044 units of 2^-1074. -/
theorem roundMag_eq_infMag_iff (n : Nat) {d : Nat} (hd : 0 < d) :
    roundMag n d = infMag ↔ (2 ^ 54 - 1) * (d * 2 ^ 2044) ≤ n := by
  obtain ⟨k, r, hw, hr, hk, hr53, hn⟩ := roundMag_parts n hd
  have hD : 0 < d * 2 ^ k := by positivity
  have hinf : infMag = 2045 * 2 ^ 52 + 2 ^ 53 := by decide
  have hiff : roundMag n d = infMag ↔ 2045 * 2 ^ 52 + 2 ^ 53 ≤ k * 2 ^ 52 + r := by
    rw [hw, hinf]
    exact min_eq_left_iff
  rw [hiff]
  obtain ⟨hhi, hlo, htie⟩ := roundHalfEven_bounds n hD
  rw [← hr] at hhi hlo htie
  clear hw hiff hinf hr
  have hP : 0 < d * 2 ^ 2044 := by positivity
  rcases Nat.lt_trichotomy k 2045 with h | h | h
  · -- below the last binade
    have hle : d * 2 ^ k ≤ d * 2 ^ 2044 := Nat.mul_le_mul_left d (pow_le_pow_right₀ one_le_two (by omega))
    generalize d * 2 ^ k = D at *
    generalize d * 2 ^ 2044 = P at *
    constructor
    · intro h1
      omega
    · intro h1
      exfalso
      have h2 : 2 * r * D ≤ 2 * 2 ^ 53 * P := Nat.mul_le_mul (by omega) hle
      omega
  · -- the last binade
    have hsucc : ∀ m, d * 2 ^ (m + 1) = 2 * (d * 2 ^ m) := fun m => by ring
    have hDP : d * 2 ^ k = 2 * (d * 2 ^ 2044) := h ▸ hsucc 2044
    rw [hDP] at hhi hlo htie hn
    generalize d * 2 ^ 2044 = P at *
    constructor
    · intro h1
      have h2 : r = 2 ^ 53 := by omega
      rw [h2] at hlo
      omega
    · intro h1
      by_contra h2
      have h3 : r ≤ 2 ^ 53 - 1 := by omega
      have h4 : 2 * r * (2 * P) ≤ 2 * (2 ^ 53 - 1) * (2 * P) := Nat.mul_le_mul_right _ (by omega)
      have h5 : r = 2 ^ 53 - 1 := by
        by_contra h6
        have h7 : 2 * r * (2 * P) ≤ 2 * (2 ^ 53 - 2) * (2 * P) := Nat.mul_le_mul_right _ (by omega)
        omega
      have h8 := htie (by rw [h5] at hhi ⊢; omega)
      omega
  · -- beyond it
    have hge : 2 ^ 52 * (d * 2 ^ k) ≤ n := hn.resolve_left (by omega)
    have hle : d * 2 ^ 2044 * 4 ≤ d * 2 ^ k := by
      have : d * 2 ^ 2044 * 4 = d * 2 ^ (2044 + 2) := by rw [pow_add]; ring
      rw [this]
      exact Nat.mul_le_mul_left d (Nat.pow_le_pow_right (by norm_num) (by omega))
    generalize d * 2 ^ k = D at *
    generalize d * 2 ^ 2044 = P at *
    constructor
    · intro _
      omega
    · intro _
      omega

theorem roundMag_le (n d : Nat) : roundMag n d ≤ infMag := min_le_left _ _

/-- Rounding does not go below a magnitude that n / d reaches. -/
theorem le_roundMag {n d mag : Nat} (hd : 0 < d) (hm : mag ≤ infMag) (h : magValue mag * d ≤ n) :
    mag ≤ roundMag n d := by
  by_contra hlt
  rw [not_le] at hlt
  have h1 := (roundMag_nearest n hd (lt_of_lt_of_le hlt hm) mag).1
  have h2 : magValue (roundMag n d) * d < magValue mag * d :=
    Nat.mul_lt_mul_of_pos_right (magValue_strictMono hlt) hd
  unfold distance at h1
  rw [abs_of_nonpos (by omega), abs_of_nonpos (by omega)] at h1
  omega

theorem log2_half (q : Nat) (h : 2 ≤ q) : Nat.log2 q = Nat.log2 (q / 2) + 1 := by
  rw [Nat.log2_eq_iff (by omega)]
  have h1 := Nat.log2_self_le (n := q / 2) (by omega)
  have h2 := Nat.lt_log2_self (n := q / 2)
  have e : ∀ k, 2 ^ (k + 1) = 2 ^ k * 2 := fun k => pow_succ 2 k
  rw [e (_ + 1)]
  rw [e] at h2 ⊢
  generalize 2 ^ (q / 2).log2 = x at *
  omega

/-- Halving n / d takes it one binade down, until the last. -/
theorem excess_half (n d : Nat) : excess n (2 * d) = excess n d - 1 := by
  have e : n / (2 * d) = n / d / 2 := by rw [Nat.mul_comm, Nat.div_div_eq_div_mul]
  unfold excess
  rw [e]
  generalize n / d = q
  rcases Nat.lt_or_ge q 2 with h | h
  · have : q = 0 ∨ q = 1 := by omega
    rcases this with rfl | rfl <;> decide
  · rw [log2_half _ h]
    omega

/-- In binade 0, n / d is below 2^53. -/
theorem lt_of_excess_zero {n d : Nat} (hd : 0 < d) (h : excess n d = 0) : n < 2 ^ 53 * d := by
  rw [← Nat.div_lt_iff_lt_mul hd]
  refine lt_of_lt_of_le Nat.lt_log2_self (Nat.pow_le_pow_right (by norm_num) ?_)
  unfold excess at h
  omega

/-- Rounding half of n / d gives half the value, unless that is finer than the format: it is not when
the rounded n / d is at least the second normal binade (2^-1021), or zero. -/
theorem magValue_roundMag_half (n : Nat) {d : Nat} (hd : 0 < d) (hfin : roundMag n d < infMag)
    (h : 2 ^ 53 ≤ roundMag n d ∨ roundMag n d = 0) :
    2 * magValue (roundMag n (2 * d)) = magValue (roundMag n d) := by
  by_cases he : excess n d = 0
  · have h1 : roundMag n d = min infMag (roundHalfEven n d) := by unfold roundMag; rw [he]; simp
    have h2 : roundMag n (2 * d) = min infMag (roundHalfEven n (2 * d)) := by
      unfold roundMag
      rw [excess_half, he]
      simp
    have h3 : roundMag n d = roundHalfEven n d := by omega
    obtain ⟨a1, a2, -⟩ := roundHalfEven_bounds n hd
    obtain ⟨b1, b2, -⟩ := roundHalfEven_bounds n (D := 2 * d) (by omega)
    have hn := lt_of_excess_zero hd he
    have hle := (excess_spec n hd).2.1
    rw [he, pow_zero, mul_one] at hle
    have assoc : ∀ x, 2 * x * (2 * d) = 4 * (x * d) := fun x => by ring
    rw [assoc] at b1 b2
    rcases h with h | h
    · have e1 : roundHalfEven n d = 2 ^ 53 := by omega
      have e2 : roundHalfEven n (2 * d) = 2 ^ 52 := by
        rw [e1] at a1 a2
        generalize roundHalfEven n (2 * d) = x at *
        by_contra hx
        rcases Nat.lt_or_gt_of_ne hx with hx | hx
        · have : x * d ≤ (2 ^ 52 - 1) * d := Nat.mul_le_mul_right d (by omega)
          omega
        · have : (2 ^ 52 + 1) * d ≤ x * d := Nat.mul_le_mul_right d (by omega)
          omega
      rw [h2, h3, e1, e2]
      decide +kernel
    · have e1 : roundHalfEven n d = 0 := by omega
      have e2 : roundHalfEven n (2 * d) = 0 := by
        rw [e1] at a1 a2
        generalize roundHalfEven n (2 * d) = x at *
        by_contra hx
        have : 1 * d ≤ x * d := Nat.mul_le_mul_right d (by omega)
        omega
      rw [h2, h3, e1, e2]
      decide
  · obtain ⟨m, hm⟩ := Nat.exists_eq_succ_of_ne_zero he
    obtain ⟨s1, s2, -⟩ := excess_spec n hd
    have hpow : 2 * d * 2 ^ m = d * 2 ^ (m + 1) := by ring
    have h1 : roundMag n d = min infMag ((m + 1) * 2 ^ 52 + roundHalfEven n (d * 2 ^ (m + 1))) := by
      unfold roundMag
      rw [hm]
    have h2 : roundMag n (2 * d) = min infMag (m * 2 ^ 52 + roundHalfEven n (d * 2 ^ (m + 1))) := by
      unfold roundMag
      rw [excess_half, hm, Nat.succ_sub_one, hpow]
    rw [hm] at s1 s2
    change _ ≤ 2 ^ 53 at s2
    have s3 := s1.resolve_left (Nat.succ_ne_zero m)
    change 2 ^ 52 ≤ roundHalfEven n (d * 2 ^ (m + 1)) at s3
    change roundHalfEven n (d * 2 ^ (m + 1)) ≤ 2 ^ 53 at s2
    generalize roundHalfEven n (d * 2 ^ (m + 1)) = r at *
    have h3 : roundMag n d = (m + 1) * 2 ^ 52 + r := by omega
    have h4 : roundMag n (2 * d) = m * 2 ^ 52 + r := by omega
    rw [h3, h4, magValue_binade (.inr s3) s2, magValue_binade (.inr s3) s2]
    ring

/-- A value that a finite magnitude stands for is not changed by rounding. -/
theorem roundMag_exact {mag d : Nat} (hd : 0 < d) (h : mag < infMag) :
    roundMag (magValue mag * d) d = mag := by
  have hlt : roundMag (magValue mag * d) d < infMag := by
    refine lt_of_le_of_ne (roundMag_le _ _) fun he => ?_
    have h1 := (roundMag_eq_infMag_iff _ hd).1 he
    have hinf : infMag = (2044 + 1) * 2 ^ 52 + 2 ^ 53 := by decide
    have h3 : ∀ P, magValue mag ≤ P * (2 ^ 54 - 2) → magValue mag * d ≤ (2 ^ 54 - 2) * (d * P) :=
      fun P h4 => le_trans (Nat.mul_le_mul_right d h4) (le_of_eq (by ring))
    have h5 := h3 _ (magValue_le (hinf ▸ h))
    have hP : 0 < d * 2 ^ 2044 := by positivity
    generalize d * 2 ^ 2044 = P at *
    omega
  have h0 := (roundMag_nearest (magValue mag * d) hd hlt mag).1
  unfold distance at h0
  rw [sub_self, abs_zero] at h0
  have h1 := abs_eq_zero.1 (le_antisymm h0 (abs_nonneg _))
  rw [sub_eq_zero, Nat.cast_inj] at h1
  exact magValue_inj (Nat.eq_of_mul_eq_mul_right hd h1)

end Sys2Proof.Machine
end

