-- ==== Sys2Proof/Laws/State.lean ====
section
/-! SUPPORT. One lemma per field per update of the state, so that no proof unfolds a record update. -/

namespace Sys2Proof.Machine

/-! ### Reset -/

@[simp] theorem State.reset_gainDb : State.reset.gainDb = 0x0000000000000000 := rfl
@[simp] theorem State.reset_freq : State.reset.freq = 0x0000000000000000 := rfl
@[simp] theorem State.reset_q : State.reset.q = 0x0000000000000000 := rfl
@[simp] theorem State.reset_fs : State.reset.fs = 0x0000000000000000 := rfl
@[simp] theorem State.reset_status : State.reset.status = 0x0000000000000000 := rfl
@[simp] theorem State.reset_b0 : State.reset.b0 = 0x0000000000000000 := rfl
@[simp] theorem State.reset_b1 : State.reset.b1 = 0x0000000000000000 := rfl
@[simp] theorem State.reset_b2 : State.reset.b2 = 0x0000000000000000 := rfl
@[simp] theorem State.reset_a1 : State.reset.a1 = 0x0000000000000000 := rfl
@[simp] theorem State.reset_a2 : State.reset.a2 = 0x0000000000000000 := rfl
@[simp] theorem State.reset_port : State.reset.port = [] := rfl
@[simp] theorem State.reset_readData : State.reset.readData = none := rfl

/-! ### Commit (R95) -/

@[simp] theorem State.commit_gainDb (s : State) (c : Coeffs) : (s.commit c).gainDb = s.gainDb := rfl
@[simp] theorem State.commit_freq (s : State) (c : Coeffs) : (s.commit c).freq = s.freq := rfl
@[simp] theorem State.commit_q (s : State) (c : Coeffs) : (s.commit c).q = s.q := rfl
@[simp] theorem State.commit_fs (s : State) (c : Coeffs) : (s.commit c).fs = s.fs := rfl
@[simp] theorem State.commit_status (s : State) (c : Coeffs) : (s.commit c).status = statusWord true .none .ok := rfl
@[simp] theorem State.commit_b0 (s : State) (c : Coeffs) : (s.commit c).b0 = c.b0 := rfl
@[simp] theorem State.commit_b1 (s : State) (c : Coeffs) : (s.commit c).b1 = c.b1 := rfl
@[simp] theorem State.commit_b2 (s : State) (c : Coeffs) : (s.commit c).b2 = c.b2 := rfl
@[simp] theorem State.commit_a1 (s : State) (c : Coeffs) : (s.commit c).a1 = c.a1 := rfl
@[simp] theorem State.commit_a2 (s : State) (c : Coeffs) : (s.commit c).a2 = c.a2 := rfl
@[simp] theorem State.commit_port (s : State) (c : Coeffs) : (s.commit c).port = s.port := rfl
@[simp] theorem State.commit_readData (s : State) (c : Coeffs) : (s.commit c).readData = s.readData := rfl

/-! ### Fail (R96) -/

@[simp] theorem State.fail_gainDb (s : State) (e : Cause) : (s.fail e).gainDb = s.gainDb := rfl
@[simp] theorem State.fail_freq (s : State) (e : Cause) : (s.fail e).freq = s.freq := rfl
@[simp] theorem State.fail_q (s : State) (e : Cause) : (s.fail e).q = s.q := rfl
@[simp] theorem State.fail_fs (s : State) (e : Cause) : (s.fail e).fs = s.fs := rfl
@[simp] theorem State.fail_status (s : State) (e : Cause) : (s.fail e).status = statusWord false e (causeCode e) := rfl
@[simp] theorem State.fail_b0 (s : State) (e : Cause) : (s.fail e).b0 = 0 := rfl
@[simp] theorem State.fail_b1 (s : State) (e : Cause) : (s.fail e).b1 = 0 := rfl
@[simp] theorem State.fail_b2 (s : State) (e : Cause) : (s.fail e).b2 = 0 := rfl
@[simp] theorem State.fail_a1 (s : State) (e : Cause) : (s.fail e).a1 = 0 := rfl
@[simp] theorem State.fail_a2 (s : State) (e : Cause) : (s.fail e).a2 = 0 := rfl
@[simp] theorem State.fail_port (s : State) (e : Cause) : (s.fail e).port = s.port := rfl
@[simp] theorem State.fail_readData (s : State) (e : Cause) : (s.fail e).readData = s.readData := rfl

/-! ### Reset of the registers (R180) -/

@[simp] theorem State.resetRegisters_gainDb (s : State) : s.resetRegisters.gainDb = 0 := rfl
@[simp] theorem State.resetRegisters_freq (s : State) : s.resetRegisters.freq = 0 := rfl
@[simp] theorem State.resetRegisters_q (s : State) : s.resetRegisters.q = 0 := rfl
@[simp] theorem State.resetRegisters_fs (s : State) : s.resetRegisters.fs = 0 := rfl
@[simp] theorem State.resetRegisters_status (s : State) : s.resetRegisters.status = 0 := rfl
@[simp] theorem State.resetRegisters_b0 (s : State) : s.resetRegisters.b0 = 0 := rfl
@[simp] theorem State.resetRegisters_b1 (s : State) : s.resetRegisters.b1 = 0 := rfl
@[simp] theorem State.resetRegisters_b2 (s : State) : s.resetRegisters.b2 = 0 := rfl
@[simp] theorem State.resetRegisters_a1 (s : State) : s.resetRegisters.a1 = 0 := rfl
@[simp] theorem State.resetRegisters_a2 (s : State) : s.resetRegisters.a2 = 0 := rfl
@[simp] theorem State.resetRegisters_port (s : State) : s.resetRegisters.port = s.port := rfl
@[simp] theorem State.resetRegisters_readData (s : State) : s.resetRegisters.readData = s.readData := rfl

/-! ### Taking and presenting events -/

@[simp] theorem State.advance_gainDb (s : State) : s.advance.gainDb = s.gainDb := rfl
@[simp] theorem State.advance_freq (s : State) : s.advance.freq = s.freq := rfl
@[simp] theorem State.advance_q (s : State) : s.advance.q = s.q := rfl
@[simp] theorem State.advance_fs (s : State) : s.advance.fs = s.fs := rfl
@[simp] theorem State.advance_status (s : State) : s.advance.status = s.status := rfl
@[simp] theorem State.advance_b0 (s : State) : s.advance.b0 = s.b0 := rfl
@[simp] theorem State.advance_b1 (s : State) : s.advance.b1 = s.b1 := rfl
@[simp] theorem State.advance_b2 (s : State) : s.advance.b2 = s.b2 := rfl
@[simp] theorem State.advance_a1 (s : State) : s.advance.a1 = s.a1 := rfl
@[simp] theorem State.advance_a2 (s : State) : s.advance.a2 = s.a2 := rfl
@[simp] theorem State.advance_port (s : State) : s.advance.port = s.port.tail := rfl
@[simp] theorem State.advance_readData (s : State) : s.advance.readData = s.readData := rfl
@[simp] theorem State.presentFirst_gainDb (s : State) (e : PortEvent) : (s.presentFirst e).gainDb = s.gainDb := rfl
@[simp] theorem State.presentFirst_freq (s : State) (e : PortEvent) : (s.presentFirst e).freq = s.freq := rfl
@[simp] theorem State.presentFirst_q (s : State) (e : PortEvent) : (s.presentFirst e).q = s.q := rfl
@[simp] theorem State.presentFirst_fs (s : State) (e : PortEvent) : (s.presentFirst e).fs = s.fs := rfl
@[simp] theorem State.presentFirst_status (s : State) (e : PortEvent) : (s.presentFirst e).status = s.status := rfl
@[simp] theorem State.presentFirst_b0 (s : State) (e : PortEvent) : (s.presentFirst e).b0 = s.b0 := rfl
@[simp] theorem State.presentFirst_b1 (s : State) (e : PortEvent) : (s.presentFirst e).b1 = s.b1 := rfl
@[simp] theorem State.presentFirst_b2 (s : State) (e : PortEvent) : (s.presentFirst e).b2 = s.b2 := rfl
@[simp] theorem State.presentFirst_a1 (s : State) (e : PortEvent) : (s.presentFirst e).a1 = s.a1 := rfl
@[simp] theorem State.presentFirst_a2 (s : State) (e : PortEvent) : (s.presentFirst e).a2 = s.a2 := rfl
@[simp] theorem State.presentFirst_port (s : State) (e : PortEvent) : (s.presentFirst e).port = e :: s.port := rfl
@[simp] theorem State.presentFirst_readData (s : State) (e : PortEvent) : (s.presentFirst e).readData = s.readData := rfl
@[simp] theorem State.present_gainDb (s : State) (l : List Access) : (s.present l).gainDb = s.gainDb := rfl
@[simp] theorem State.present_freq (s : State) (l : List Access) : (s.present l).freq = s.freq := rfl
@[simp] theorem State.present_q (s : State) (l : List Access) : (s.present l).q = s.q := rfl
@[simp] theorem State.present_fs (s : State) (l : List Access) : (s.present l).fs = s.fs := rfl
@[simp] theorem State.present_status (s : State) (l : List Access) : (s.present l).status = s.status := rfl
@[simp] theorem State.present_b0 (s : State) (l : List Access) : (s.present l).b0 = s.b0 := rfl
@[simp] theorem State.present_b1 (s : State) (l : List Access) : (s.present l).b1 = s.b1 := rfl
@[simp] theorem State.present_b2 (s : State) (l : List Access) : (s.present l).b2 = s.b2 := rfl
@[simp] theorem State.present_a1 (s : State) (l : List Access) : (s.present l).a1 = s.a1 := rfl
@[simp] theorem State.present_a2 (s : State) (l : List Access) : (s.present l).a2 = s.a2 := rfl
@[simp] theorem State.present_port (s : State) (l : List Access) : (s.present l).port = s.port ++ l.map .access := rfl
@[simp] theorem State.present_readData (s : State) (l : List Access) : (s.present l).readData = s.readData := rfl

/-- Taking the event just presented gives the state back. -/
@[simp] theorem State.advance_presentFirst (s : State) (e : PortEvent) : (s.presentFirst e).advance = s := rfl

/-! ### Register writes (R45) -/

@[simp] theorem State.storeTarget_status (s : State) (t : Target) (v : Word) : (s.storeTarget t v).status = s.status := by
  cases t <;> rfl
@[simp] theorem State.storeTarget_b0 (s : State) (t : Target) (v : Word) : (s.storeTarget t v).b0 = s.b0 := by
  cases t <;> rfl
@[simp] theorem State.storeTarget_b1 (s : State) (t : Target) (v : Word) : (s.storeTarget t v).b1 = s.b1 := by
  cases t <;> rfl
@[simp] theorem State.storeTarget_b2 (s : State) (t : Target) (v : Word) : (s.storeTarget t v).b2 = s.b2 := by
  cases t <;> rfl
@[simp] theorem State.storeTarget_a1 (s : State) (t : Target) (v : Word) : (s.storeTarget t v).a1 = s.a1 := by
  cases t <;> rfl
@[simp] theorem State.storeTarget_a2 (s : State) (t : Target) (v : Word) : (s.storeTarget t v).a2 = s.a2 := by
  cases t <;> rfl
@[simp] theorem State.storeTarget_port (s : State) (t : Target) (v : Word) : (s.storeTarget t v).port = s.port := by
  cases t <;> rfl
@[simp] theorem State.storeTarget_readData (s : State) (t : Target) (v : Word) : (s.storeTarget t v).readData = s.readData := by
  cases t <;> rfl
theorem State.storeTarget_gainDb (s : State) (t : Target) (v : Word) :
    (s.storeTarget t v).gainDb = if t = .gainDb then v else s.gainDb := by
  cases t <;> rfl
theorem State.storeTarget_freq (s : State) (t : Target) (v : Word) :
    (s.storeTarget t v).freq = if t = .freq then v else s.freq := by
  cases t <;> rfl
theorem State.storeTarget_q (s : State) (t : Target) (v : Word) :
    (s.storeTarget t v).q = if t = .q then v else s.q := by
  cases t <;> rfl
theorem State.storeTarget_fs (s : State) (t : Target) (v : Word) :
    (s.storeTarget t v).fs = if t = .fs then v else s.fs := by
  cases t <;> rfl

/-- A register other than the one written reads as before. -/
theorem State.readTarget_storeTarget_of_ne (s : State) {t u : Target} (v : Word) (h : u ≠ t) :
    (s.storeTarget t v).readTarget u = s.readTarget u := by
  cases t <;> cases u <;> first | rfl | exact absurd rfl h

end Sys2Proof.Machine
end

