-- ==== Sys2Proof/Laws/Ops.lean ====
section
/-! SUPPORT. What each shared operation can do, said once: classes of words, the open functions,
validation, a design, a command, and a step. -/

namespace Sys2Proof.Machine

/-! ### Classes of words (R63) -/

theorem isFinite_iff {x : Word} : isFinite x = true ↔ magOf x < infMag := decide_eq_true_iff

theorem isNaN_iff {x : Word} : isNaN x = true ↔ infMag < magOf x := decide_eq_true_iff

theorem isInf_iff {x : Word} : isInf x = true ↔ magOf x = infMag := beq_iff_eq

theorem isZero_iff {x : Word} : isZero x = true ↔ magOf x = 0 := beq_iff_eq

theorem f64_of_nan {x : Word} (h : isNaN x = true) : f64 x = .nan := if_pos h

theorem f64_of_inf {x : Word} (h : isInf x = true) : f64 x = .inf (signOf x) := by
  have h1 : isNaN x ≠ true := by
    rw [isInf_iff] at h
    rw [Ne, isNaN_iff]
    omega
  rw [f64, if_neg h1, if_pos h]

theorem f64_of_finite {x : Word} (h : isFinite x = true) : f64 x = .fin (signOf x) (magValue (magOf x)) := by
  rw [isFinite_iff] at h
  have h1 : isNaN x ≠ true := by rw [Ne, isNaN_iff]; omega
  have h2 : isInf x ≠ true := by rw [Ne, isInf_iff]; omega
  rw [f64, if_neg h1, if_neg h2]

/-- Every word is a NaN, an infinity or finite. -/
theorem class_cases (x : Word) : isNaN x = true ∨ isInf x = true ∨ isFinite x = true := by
  rw [isNaN_iff, isInf_iff, isFinite_iff]
  omega

theorem isNaN_nanWord : isNaN nanWord = true := by decide

theorem infMag_lt : infMag < 2 ^ 63 := by decide

theorem isInf_infWord (s : Bool) : isInf (infWord s) = true := by cases s <;> decide

theorem isFinite_zeroWord (s : Bool) : isFinite (zeroWord s) = true := by cases s <;> decide

theorem signOf_infWord (s : Bool) : signOf (infWord s) = s := signOf_pack s infMag_lt

theorem signOf_zeroWord (s : Bool) : signOf (zeroWord s) = s := signOf_pack s (by norm_num)

theorem zeroWord_of_isZero {x : Word} (h : isZero x = true) : x = zeroWord (signOf x) :=
  word_ext (signOf_zeroWord _).symm (by rw [isZero_iff.1 h, zeroWord, magOf_pack _ (by norm_num)])

theorem infWord_of_isInf {x : Word} (h : isInf x = true) : x = infWord (signOf x) :=
  word_ext (signOf_infWord _).symm (by rw [isInf_iff.1 h, infWord, magOf_pack _ infMag_lt])

theorem magOf_pack_roundMag (s : Bool) (n d : Nat) : magOf (pack s (roundMag n d)) = roundMag n d :=
  magOf_pack s (lt_of_le_of_lt (roundMag_le n d) infMag_lt)

theorem signOf_pack_roundMag (s : Bool) (n d : Nat) : signOf (pack s (roundMag n d)) = s :=
  signOf_pack s (lt_of_le_of_lt (roundMag_le n d) infMag_lt)

/-- A finite word made from the value it stands for, as a fraction with any denominator. -/
theorem pack_roundMag_exact (x : Word) (hx : isFinite x = true) {d : Nat} (hd : 0 < d) :
    pack (signOf x) (roundMag (magValue (magOf x) * d) d) = x := by
  rw [roundMag_exact hd (isFinite_iff.1 hx), pack_sign_mag]

@[simp] theorem magOf_fneg (x : Word) : magOf (fneg x) = magOf x := magOf_pack _ (magOf_lt x)

@[simp] theorem signOf_fneg (x : Word) : signOf (fneg x) = !signOf x := signOf_pack _ (magOf_lt x)

/-! ### The operations on special operands (R99) -/

theorem fadd_nan {a b : Word} (h : isNaN a = true ∨ isNaN b = true) : fadd a b = nanWord := by
  unfold fadd
  rcases h with h | h <;> rw [f64_of_nan h]
  rcases f64 a <;> rfl

theorem isNaN_fneg (x : Word) : isNaN (fneg x) = isNaN x := by
  unfold isNaN
  rw [magOf_fneg]

theorem isFinite_fneg (x : Word) : isFinite (fneg x) = isFinite x := by
  unfold isFinite
  rw [magOf_fneg]

theorem isInf_fneg (x : Word) : isInf (fneg x) = isInf x := by
  unfold isInf
  rw [magOf_fneg]

theorem fsub_nan {a b : Word} (h : isNaN a = true ∨ isNaN b = true) : fsub a b = nanWord :=
  fadd_nan (by rwa [isNaN_fneg])

theorem fmul_nan {a b : Word} (h : isNaN a = true ∨ isNaN b = true) : fmul a b = nanWord := by
  unfold fmul
  rcases h with h | h <;> rw [f64_of_nan h]
  rcases f64 a <;> rfl

theorem fdiv_nan {a b : Word} (h : isNaN a = true ∨ isNaN b = true) : fdiv a b = nanWord := by
  unfold fdiv
  rcases h with h | h <;> rw [f64_of_nan h]
  rcases f64 a <;> rfl

theorem flt_nan {a b : Word} (h : isNaN a = true ∨ isNaN b = true) : flt a b = false := by
  unfold flt
  rcases h with h | h <;> rw [f64_of_nan h]
  rcases f64 a <;> rfl

theorem fmul_finite {a b : Word} (ha : isFinite a = true) (hb : isFinite b = true) :
    fmul a b = pack (signOf a ^^ signOf b) (roundMag (magValue (magOf a) * magValue (magOf b)) (2 ^ 1074)) := by
  unfold fmul
  rw [f64_of_finite ha, f64_of_finite hb]

theorem fdiv_finite {a b : Word} (ha : isFinite a = true) (hb : isFinite b = true) (h0 : isZero b = false) :
    fdiv a b = pack (signOf a ^^ signOf b) (roundMag (magValue (magOf a) * 2 ^ 1074) (magValue (magOf b))) := by
  have : magValue (magOf b) ≠ 0 := by
    rw [Ne, magValue_eq_zero, ← isZero_iff, h0]
    decide
  unfold fdiv
  rw [f64_of_finite ha, f64_of_finite hb]
  exact if_neg this

theorem fadd_finite {a b : Word} (ha : isFinite a = true) (hb : isFinite b = true) :
    fadd a b = addFinite (signOf a) (magValue (magOf a)) (signOf b) (magValue (magOf b)) := by
  unfold fadd
  rw [f64_of_finite ha, f64_of_finite hb]

/-! ### Operations that change nothing, and halving (R99, R114, R123) -/

theorem magValue_one : magValue (magOf oneWord) = 2 ^ 1074 := by decide +kernel

/-- Multiplying by 1 changes nothing. -/
theorem fmul_one (a : Word) (h : isNaN a = false) : fmul a oneWord = a := by
  rcases class_cases a with hn | hi | hf
  · rw [hn] at h
    cases h
  · have e := infWord_of_isInf hi
    rw [e]
    cases signOf a <;> decide +kernel
  · rw [fmul_finite hf (by decide), magValue_one]
    have : signOf oneWord = false := by decide
    rw [this, Bool.xor_false]
    exact pack_roundMag_exact a hf (by positivity)

/-- Dividing by 1 changes nothing. -/
theorem fdiv_one (a : Word) (h : isNaN a = false) : fdiv a oneWord = a := by
  rcases class_cases a with hn | hi | hf
  · rw [hn] at h
    cases h
  · have e := infWord_of_isInf hi
    rw [e]
    cases signOf a <;> decide +kernel
  · rw [fdiv_finite hf (by decide) (by decide), magValue_one]
    have : signOf oneWord = false := by decide
    rw [this, Bool.xor_false]
    exact pack_roundMag_exact a hf (by positivity)

/-- A finite value other than zero divided by itself is 1. -/
theorem fdiv_self {a : Word} (hf : isFinite a = true) (h0 : isZero a = false) : fdiv a a = oneWord := by
  have hpos : 0 < magValue (magOf a) := by
    rw [Nat.pos_iff_ne_zero, Ne, magValue_eq_zero, ← isZero_iff, h0]
    decide
  rw [fdiv_finite hf hf h0, Bool.xor_self, mul_comm, ← magValue_one]
  exact (congrFun (congrArg pack (by decide : false = signOf oneWord)) _).trans
    (pack_roundMag_exact oneWord (by decide) hpos)

/-! ### The open functions (R100, R101) -/

theorem inUnit_finite {x : Word} (h : inUnit x = true) : isFinite x = true := by
  rw [isFinite_iff]
  exact lt_of_le_of_lt (of_decide_eq_true h) (by decide)

/-- Whatever the raw function, the sine of a finite value lies in [-1, 1]. -/
theorem inUnit_sinOf (raw : Word → Word) {x : Word} (h : isFinite x = true) : inUnit (sinOf raw x) = true := by
  unfold sinOf
  rw [h]
  split
  · contradiction
  · split
    · rename_i h0
      rw [inUnit, isZero_iff.1 h0]
      decide
    · split
      · assumption
      · decide

theorem inUnit_cosOf (raw : Word → Word) {x : Word} (h : isFinite x = true) : inUnit (cosOf raw x) = true := by
  unfold cosOf
  rw [h]
  split
  · contradiction
  · split
    · decide
    · split
      · assumption
      · decide

theorem sinOf_not_finite (raw : Word → Word) {x : Word} (h : isFinite x = false) : sinOf raw x = nanWord := by
  unfold sinOf
  rw [h]
  rfl

theorem cosOf_not_finite (raw : Word → Word) {x : Word} (h : isFinite x = false) : cosOf raw x = nanWord := by
  unfold cosOf
  rw [h]
  rfl

/-! ### Validation (R84 to R88) -/

/-- The operands pass exactly when every check does. -/
theorem validate_eq_none_iff (f q fs : Word) : validate f q fs = none ↔
    flt (zeroWord false) fs = true ∧ isFinite fs = true ∧ flt (zeroWord false) f = true ∧
      flt f (fdiv fs twoWord) = true ∧ flt (zeroWord false) q = true ∧ isFinite q = true := by
  unfold validate
  cases flt (zeroWord false) fs <;> cases isFinite fs <;> cases flt (zeroWord false) f <;>
    cases flt f (fdiv fs twoWord) <;> cases flt (zeroWord false) q <;> cases isFinite q <;> simp

/-- A failing check has a cause of its own. -/
theorem validate_cause {f q fs : Word} {e : Cause} (h : validate f q fs = some e) :
    e = .fsNotPositive ∨ e = .fsNotFinite ∨ e = .freqOutOfRange ∨ e = .qNotPositive ∨ e = .qNotFinite := by
  revert h
  unfold validate
  split_ifs <;> simp <;> rintro rfl <;> simp

/-! ### A design (R80) -/

/-- What a completion writes is legal: finite results on success (R94), a cause on failure. -/
def Completion.Legal : Completion → Prop
  | .commit c => c.allFinite = true
  | .fail cause => cause ≠ .none

theorem checked_legal (c : Coeffs) : (checked c).Legal := by
  unfold checked
  split
  · assumption
  · exact Cause.noConfusion

theorem designWith_legal (M : MathLib) (raw : Word → Word → RawCoeffs) (f q fs : Word) :
    (designWith M raw f q fs).Legal := by
  unfold designWith
  split
  · rename_i e h
    rcases validate_cause h with rfl | rfl | rfl | rfl | rfl <;> exact Cause.noConfusion
  · exact checked_legal _

/-- A design that commits passed every check, and commits the normalised coefficients. -/
theorem designWith_commit {M : MathLib} {raw : Word → Word → RawCoeffs} {f q fs : Word} {c : Coeffs}
    (h : designWith M raw f q fs = .commit c) :
    validate f q fs = none ∧ c = normalise (raw (M.fsin (angle f fs)) (M.fcos (angle f fs))) ∧
      c.allFinite = true := by
  unfold designWith at h
  split at h
  · cases h
  · rename_i hv
    unfold checked at h
    split at h
    · cases h
      exact ⟨hv, rfl, by assumption⟩
    · cases h

/-- What a completion leaves is a sound state. -/
theorem sound_complete (s : State) {k : Completion} (h : k.Legal) : (s.complete k).Sound := by
  cases k with
  | commit c =>
    refine ⟨?_, h, fun hne => absurd ?_ hne⟩
    · change statusWord true .none .ok ∈ legalStatusWords
      decide
    · change statusWord true .none .ok = successWord
      decide
  | fail e =>
    refine ⟨?_, ?_, fun _ => rfl⟩
    · change statusWord false e (causeCode e) ∈ legalStatusWords
      cases e <;> decide
    · change Coeffs.allFinite ⟨0, 0, 0, 0, 0⟩ = true
      decide

/-! ### A command (R80) -/

/-- A command always completes, in one of the two legal ways. -/
theorem execCmd_completes (v : Word) (s : State) : ∃ k : Completion, k.Legal ∧ execCmd v s = .next (s.complete k) := by
  unfold execCmd
  split
  · exact ⟨_, designWith_legal _ _ _ _ _, rfl⟩
  · exact ⟨_, designWith_legal _ _ _ _ _, rfl⟩
  · rename_i why _
    exact ⟨.fail (illegalCause why), by cases why <;> exact Cause.noConfusion, rfl⟩

/-- DESIGN.PK and DESIGN.LP always complete, in one of the two legal ways. -/
theorem exec_command (c : Command) (s : State) :
    ∃ k : Completion, k.Legal ∧ exec c.instr s = .next (s.complete k) := by
  cases c
  · exact ⟨_, designWith_legal _ _ _ _ _, rfl⟩
  · exact ⟨_, designWith_legal _ _ _ _ _, rfl⟩

/-! ### An instruction and a step -/

/-- All an instruction can do, where it has a next state. -/
inductive Effect (s : State) : State → Prop where
  /-- a read -/
  | read (off : Offset) : Effect s { s with readData := some (s.readTarget (targetOf off)) }
  /-- a write to any offset but that of CMD -/
  | store (t : Target) (v : Word) (h : t ≠ .cmd) : Effect s (s.storeTarget t v)
  /-- a command -/
  | command (k : Completion) (h : k.Legal) : Effect s (s.complete k)

theorem exec_effect {i : Instr} {s t : State} (h : exec i s = .next t) : Effect s t := by
  cases i with
  | designPk =>
    obtain ⟨k, hk, e⟩ := exec_command .peaking s
    rw [show exec Instr.designPk s = _ from e] at h
    cases h
    exact .command k hk
  | designLp =>
    obtain ⟨k, hk, e⟩ := exec_command .lowPass s
    rw [show exec Instr.designLp s = _ from e] at h
    cases h
    exact .command k hk
  | rd off =>
    change execRd off s = _ at h
    unfold execRd at h
    split at h
    · cases h
      exact .read off
    · cases h
  | wr off data =>
    change execWr off data s = _ at h
    unfold execWr at h
    split at h
    · split at h
      · obtain ⟨k, hk, e⟩ := execCmd_completes data s
        rw [e] at h
        cases h
        exact .command k hk
      · cases h
        exact .store _ _ (by assumption)
    · cases h

/-- All a step can do, where it has a next state. -/
theorem step_cases {s t : State} (h : step s = .next t) :
    (s.port = [] ∧ t = s) ∨ (∃ rest, s.port = .reset :: rest ∧ t = s.advance.resetRegisters) ∨
      Effect s.advance t := by
  unfold step fetch at h
  split at h
  · rename_i hf
    split at hf <;> rename_i hp
    · cases h
      exact .inl ⟨hp, rfl⟩
    · cases hf
    · split at hf <;> cases hf
    · split at hf <;> cases hf
  · rename_i u hf
    split at hf <;> rename_i hp
    · cases hf
    · cases hf
      cases h
      exact .inr (.inl ⟨_, hp, rfl⟩)
    · split at hf <;> cases hf
    · split at hf <;> cases hf
  · rename_i i u hf
    split at hf
    · cases hf
    · cases hf
    · split at hf <;> cases hf
      exact .inr (.inr (exec_effect h))
    · split at hf <;> cases hf
      exact .inr (.inr (exec_effect h))
  · rename_i v u hf
    split at hf
    · cases hf
    · cases hf
    · split at hf <;> cases hf
      obtain ⟨k, hk, e⟩ := execCmd_completes v s.advance
      rw [e] at h
      cases h
      exact .inr (.inr (.command k hk))
    · split at hf <;> cases hf
  · cases h

end Sys2Proof.Machine
end

