-- ==== Sys2Proof/Laws/Rounding.lean ====
section
/-! SUPPORT. What rounding gives: exact halving and doubling, bounds that keep a quotient or a sum
finite, the measure of Reference.lean for a rounded fraction, and what is not finite. -/

namespace Sys2Proof.Machine

/-- A finite word is no NaN. -/
theorem isNaN_of_finite {x : Word} (h : isFinite x = true) : isNaN x = false := by
  cases hh : isNaN x with
  | false => rfl
  | true => rw [isNaN_iff] at hh; rw [isFinite_iff] at h; omega

theorem magValue_two : magValue (magOf (0x4000000000000000 : Word)) = 2 * 2 ^ 1074 := by decide +kernel

/-- Rounding depends on the fraction alone: a common factor changes nothing. -/
theorem roundMag_mul {c : Nat} (hc : 0 < c) (n d : Nat) : roundMag (c * n) (c * d) = roundMag n d := by
  have h1 : excess (c * n) (c * d) = excess n d := by
    unfold excess; rw [Nat.mul_div_mul_left _ _ hc]
  have h2 : ∀ D, roundHalfEven (c * n) (c * D) = roundHalfEven n D := by
    intro D
    unfold roundHalfEven
    rw [Nat.mul_div_mul_left _ _ hc, Nat.mul_mod_mul_left]
    have e1 : (2 * (c * (n % D)) < c * D) ↔ 2 * (n % D) < D := by
      rw [show 2 * (c * (n % D)) = c * (2 * (n % D)) by ring, Nat.mul_lt_mul_left hc]
    have e2 : (2 * (c * (n % D)) = c * D) ↔ 2 * (n % D) = D := by
      rw [show 2 * (c * (n % D)) = c * (2 * (n % D)) by ring, Nat.mul_right_inj hc.ne']
    simp only [e1, e2]
  unfold roundMag
  rw [h1, mul_assoc, h2]

/-- Halving a finite word rounds its magnitude over 2. -/
theorem fdiv_two {a : Word} (ha : isFinite a = true) : fdiv a 0x4000000000000000 = pack (signOf a) (roundMag (magValue (magOf a)) 2) := by
  rw [fdiv_finite ha (by decide) (by decide), magValue_two]
  have : signOf (0x4000000000000000 : Word) = false := by decide
  rw [this, Bool.xor_false, mul_comm (magValue _), mul_comm 2, roundMag_mul (by positivity)]

/-- Halving is exact from 2^-1021 up, and on zero. -/
theorem half_exact {a : Word} (ha : isFinite a = true) (h : 0x0020000000000000 ≤ magOf a ∨ magOf a = 0) :
    signOf (fdiv a 0x4000000000000000) = signOf a ∧ isFinite (fdiv a 0x4000000000000000) = true ∧ 2 * magValue (magOf (fdiv a 0x4000000000000000)) = magValue (magOf a) := by
  rw [fdiv_two ha, signOf_pack_roundMag, magOf_pack_roundMag, isFinite_iff, magOf_pack_roundMag]
  have e : roundMag (magValue (magOf a)) 1 = magOf a := by
    have := roundMag_exact (d := 1) (by norm_num) (isFinite_iff.1 ha)
    rwa [Nat.mul_one] at this
  have hh := magValue_roundMag_half (magValue (magOf a)) (d := 1) (by norm_num) (by rw [e]; exact isFinite_iff.1 ha) (by rw [e]; exact h)
  rw [e, Nat.mul_one] at hh
  refine ⟨rfl, ?_, hh⟩
  rw [← magValue_strictMono.lt_iff_lt]
  have := magValue_strictMono (isFinite_iff.1 ha)
  omega

/-- A finite value divided by one of magnitude at least 1 is finite. -/
theorem fdiv_ge_one {a b : Word} (ha : isFinite a = true) (hb : isFinite b = true) (hge : magOf oneWord ≤ magOf b) :
    isFinite (fdiv a b) = true := by
  have hb0 : isZero b = false := by
    cases hz : isZero b with
    | false => rfl
    | true => rw [isZero_iff] at hz; rw [hz] at hge; exact absurd hge (by decide)
  rw [fdiv_finite ha hb hb0, isFinite_iff, magOf_pack_roundMag]
  refine lt_of_le_of_ne (roundMag_le _ _) fun he => ?_
  have hpos : 0 < magValue (magOf b) := by
    rw [Nat.pos_iff_ne_zero, Ne, magValue_eq_zero, ← isZero_iff, hb0]; decide
  have h1 := (roundMag_eq_infMag_iff _ hpos).1 he
  have h2 : 2 ^ 1074 ≤ magValue (magOf b) := by rw [← magValue_one]; exact magValue_strictMono.monotone hge
  -- magValue a < (2^54-1)*2^2044
  have h3 : magValue (magOf a) < (2^54-1) * 2^2044 := by
    by_contra hc
    have h4 : roundMag (magValue (magOf a)) 1 = infMag := (roundMag_eq_infMag_iff _ (by norm_num)).2 (by rw [one_mul]; exact not_lt.1 hc)
    have h5 := roundMag_exact (d := 1) (by norm_num) (isFinite_iff.1 ha)
    rw [mul_one, h4] at h5
    have := isFinite_iff.1 ha
    omega
  have q : 0 < 2^1074 := by positivity
  generalize 2^1074 = P at *
  generalize magValue (magOf b) = B at *
  generalize magValue (magOf a) = A at *
  generalize 2^2044 = R at *
  have : (2^54-1) * (B * R) ≥ P * ((2^54-1)*R) := by nlinarith [Nat.mul_le_mul_right ((2^54-1)*R) h2]
  have : A * P < ((2^54-1)*R) * P := Nat.mul_lt_mul_of_pos_right h3 q
  nlinarith

theorem half_finite {a : Word} (ha : isFinite a = true) : isFinite (fdiv a twoWord) = true := fdiv_ge_one ha (by decide) (by decide)

/-- 1 plus a finite value is finite. -/
theorem one_add_finite {a : Word} (ha : isFinite a = true) : isFinite (fadd oneWord a) = true := by
  rw [fadd_finite (by decide) ha]
  unfold addFinite
  have e1 : signOf oneWord = false := by decide
  rw [e1]
  dsimp only
  split
  · exact isFinite_zeroWord _
  · rw [isFinite_iff, magOf_pack_roundMag]
    refine lt_of_le_of_ne (roundMag_le _ _) fun he => ?_
    have h1 := (roundMag_eq_infMag_iff _ (by norm_num)).1 he
    have h2 : magValue (magOf a) ≤ magValue (2045 * 2 ^ 52 + (2 ^ 53 - 1)) := by
      apply magValue_strictMono.monotone
      have := isFinite_iff.1 ha
      have : infMag = 2045 * 2 ^ 52 + 2 ^ 53 := by decide
      omega
    rw [magValue_binade (.inr (by norm_num)) (by norm_num)] at h2
    rw [magValue_one] at h1
    have q1 : (2:Nat)^2045 = 2^1074 * 2^971 := by rw [← pow_add]
    have q2 : (2:Nat)^2044 = 2^1074 * 2^970 := by rw [← pow_add]
    have q3 : (2:Nat)^971 = 2 * 2^970 := by rw [pow_succ, mul_comm]
    rw [q1, q3] at h2
    rw [q2] at h1
    have q5 : 1 < 2^970 := Nat.one_lt_pow (by norm_num) (by norm_num)
    have q4 : 0 < 2^1074 := by positivity
    generalize magValue (magOf a) = A at *
    generalize 2^1074 = P at *
    generalize 2^970 = Q at *
    have : (signed false P + signed (signOf a) A).natAbs ≤ P + A := by
      cases signOf a <;> simp [signed] <;> omega
    have : (2^54-1) * (1 * (P*Q)) ≤ P + A := by omega
    have hPQ : P * 1 < P * Q := Nat.mul_lt_mul_of_pos_left q5 q4
    rw [show P * (2 * Q) = 2 * (P * Q) by ring] at h2
    generalize P * Q = R at *
    omega

/-- 1 plus a value that is not negative is at least 1. -/
theorem one_add_ge {a : Word} (ha : isFinite a = true) (h0 : flt a 0x0000000000000000 = false) : magOf oneWord ≤ magOf (fadd oneWord a) := by
  have hz : 0 ≤ signed (signOf a) (magValue (magOf a)) := by
    unfold flt at h0
    rw [f64_of_finite ha, f64_of_finite (by decide : isFinite (0x0000000000000000 : Word) = true)] at h0
    have e : signed (signOf (0x0000000000000000 : Word)) (magValue (magOf (0x0000000000000000 : Word))) = 0 := by decide
    simp only [e] at h0
    exact not_lt.1 (of_decide_eq_false h0)
  rw [fadd_finite (by decide) ha]
  unfold addFinite
  have e1 : signOf oneWord = false := by decide
  rw [e1]
  have h1 := magValue_one
  have q4 : 0 < 2^1074 := by positivity
  have hb : (magValue (magOf oneWord) : Int) ≤ signed false (magValue (magOf oneWord)) + signed (signOf a) (magValue (magOf a)) := by
    generalize signed (signOf a) (magValue (magOf a)) = y at *
    generalize magValue (magOf oneWord) = A at *
    simp [signed]; omega
  have hp : 0 < magValue (magOf oneWord) := by rw [h1]; exact q4
  generalize signed false (magValue (magOf oneWord)) + signed (signOf a) (magValue (magOf a)) = x at *
  dsimp only
  split
  · omega
  · rw [magOf_pack_roundMag]
    apply le_roundMag (by norm_num) (by decide)
    generalize magValue (magOf oneWord) = A at *
    omega

/-- 1 - c, for a c of [-1, 1], is finite, and is zero or far above the subnormals. -/
theorem one_sub_unit {c : Word} (hc : inUnit c = true) :
    isFinite (fsub oneWord c) = true ∧ (0x0020000000000000 ≤ magOf (fsub oneWord c) ∨ magOf (fsub oneWord c) = 0) := by
  have hcf := inUnit_finite hc
  have hm : magOf c ≤ magOf oneWord := of_decide_eq_true hc
  have hv : magValue (magOf c) ≤ magValue (magOf oneWord) := magValue_strictMono.monotone hm
  unfold fsub
  rw [fadd_finite (by decide) (by rw [isFinite_fneg, hcf])]
  unfold addFinite
  have e1 : signOf oneWord = false := by decide
  rw [magOf_fneg, signOf_fneg, e1]
  have hx : 0 ≤ signed false (magValue (magOf oneWord)) + signed (!signOf c) (magValue (magOf c)) ∧ signed false (magValue (magOf oneWord)) + signed (!signOf c) (magValue (magOf c)) ≤ 2 * magValue (magOf oneWord) := by
    generalize magValue (magOf oneWord) = A at *
    generalize magValue (magOf c) = B at *
    cases signOf c <;> simp [signed] <;> omega
  -- where c < 1, the difference is at least 2^-53
  have hgap : signed false (magValue (magOf oneWord)) + signed (!signOf c) (magValue (magOf c)) = 0 ∨ (2 ^ 1021 : Int) ≤ signed false (magValue (magOf oneWord)) + signed (!signOf c) (magValue (magOf c)) := by
    have h1 : magValue (magOf oneWord) = 2 ^ 1074 := magValue_one
    have q1 : (2:Nat)^1074 = 2^1021 * 2^53 := by rw [← pow_add]
    rcases Nat.eq_or_lt_of_le hm with he | hlt
    · rw [he, h1, q1]
      have e : ((2:Int)^1021) = ((2^1021 : Nat) : Int) := by rw [Nat.cast_pow]; rfl
      rw [e]
      have h0 : 0 < 2^1021 := by positivity
      generalize 2^1021 = Q at *
      cases signOf c
      · left; simp [signed]
      · right; simp [signed]; omega
    · right
      have h2 : magValue (magOf c) ≤ magValue (1021 * 2 ^ 52 + (2 ^ 53 - 1)) := by
        apply magValue_strictMono.monotone
        have : magOf oneWord = 1021 * 2 ^ 52 + 2 ^ 53 := by decide
        omega
      rw [magValue_binade (.inr (by norm_num)) (by norm_num)] at h2
      rw [h1, q1]
      have e : ((2:Int)^1021) = ((2^1021 : Nat) : Int) := by rw [Nat.cast_pow]; rfl
      rw [e]
      have h0 : 0 < 2^1021 := by positivity
      generalize 2^1021 = Q at *
      generalize magValue (magOf c) = m at *
      cases signOf c <;> simp [signed] <;> omega
  generalize signed false (magValue (magOf oneWord)) + signed (!signOf c) (magValue (magOf c)) = x at *
  dsimp only
  split
  · rename_i h0
    cases (!signOf c) <;> decide
  · rename_i h0
    have hg := hgap.resolve_left h0
    rw [isFinite_iff, magOf_pack_roundMag]
    constructor
    · refine lt_of_le_of_ne (roundMag_le _ _) fun he => ?_
      have := (roundMag_eq_infMag_iff _ (by norm_num)).1 he
      rw [magValue_one] at hx
      have q2 : (2:Nat)^2044 = 2^1074 * 2^970 := by rw [← pow_add]
      have q3 : 0 < 2^970 := by positivity
      have q4 : 0 < 2^1074 := by positivity
      rw [q2] at this
      have h2 : x.natAbs ≤ 2 * 2^1074 := by
        generalize 2^1074 = P at *
        omega
      have h5 : 2^1074 ≤ 2^1074 * 2^970 := Nat.le_mul_of_pos_right _ q3
      generalize 2^1074 * 2^970 = R at *
      generalize 2^1074 = P at *
      omega
    · left
      refine le_roundMag (by norm_num) (by decide) ?_
      have : magValue 0x0020000000000000 = 2^53 := by decide +kernel
      rw [this]
      have h3 : (2:Int)^53 ≤ 2^1021 := pow_le_pow_right₀ (by norm_num) (by norm_num)
      generalize (2:Int)^1021 = Q at *
      omega

/-- -(2 × c), for a c of [-1, 1], is finite. -/
theorem minusTwice_unit {c : Word} (hc : inUnit c = true) : isFinite (minusTwice c) = true := by
  unfold minusTwice
  rw [isFinite_fneg, fmul_finite (by decide) (inUnit_finite hc), isFinite_iff, magOf_pack_roundMag]
  refine lt_of_le_of_ne (roundMag_le _ _) fun he => ?_
  have q4 : 0 < 2^1074 := by positivity
  have h1 := (roundMag_eq_infMag_iff _ q4).1 he
  have hm : magOf c ≤ magOf oneWord := of_decide_eq_true hc
  have hv : magValue (magOf c) ≤ magValue (magOf oneWord) := magValue_strictMono.monotone hm
  rw [magValue_one] at hv
  have e2 : magValue (magOf twoWord) = 2 * 2 ^ 1074 := magValue_two
  rw [e2] at h1
  have q2 : (2:Nat)^2044 = 2^1074 * 2^970 := by rw [← pow_add]
  rw [q2] at h1
  have q3 : 0 < 2^970 := by positivity
  generalize magValue (magOf c) = A at *
  generalize 2^1074 = P at *
  generalize 2^970 = Q at *
  have a1 : P * P ≤ P * (P * Q) := Nat.mul_le_mul_left P (Nat.le_mul_of_pos_right P q3)
  have a2 : 2 * P * A ≤ 2 * P * P := Nat.mul_le_mul_left _ hv
  have a3 : 0 < P * P := by positivity
  rw [mul_assoc 2 P P] at a2
  generalize P * (P * Q) = X at *
  generalize P * P = Y at *
  generalize 2 * P * A = Z at *
  omega

/-- Dividing a finite value other than zero by a zero gives an infinity. -/
theorem fdiv_by_zero {a : Word} (s : Bool) (ha : isFinite a = true) (h0 : isZero a = false) : fdiv a (zeroWord s) = infWord (signOf a ^^ s) := by
  have hm : magValue (magOf a) ≠ 0 := by rw [Ne, magValue_eq_zero, ← isZero_iff, h0]; decide
  have hz : f64 (zeroWord s) = .fin s 0 := by cases s <;> decide
  unfold fdiv
  rw [f64_of_finite ha, hz]
  dsimp only
  rw [if_pos rfl, if_neg hm]

/-- A word stands for 0 exactly when it is a zero. -/
theorem valueOf_eq_zero_iff {x : Word} : valueOf x = 0 ↔ isZero x = true := by
  unfold valueOf
  rw [isZero_iff, ← @magValue_eq_zero (magOf x)]
  have hP : (2:ℚ)^1074 ≠ 0 := by positivity
  rw [div_eq_zero_iff, or_iff_left hP]
  cases signOf x <;> simp [signed]

/-- Negation negates the value. -/
theorem valueOf_fneg (x : Word) : valueOf (fneg x) = - valueOf x := by
  unfold valueOf
  rw [signOf_fneg, magOf_fneg]
  cases signOf x <;> simp [signed, neg_div]

/-- In d-ths of the least subnormal: no finite word is nearer to a fraction than its rounding, and
where another value is as near the rounding is even. -/
theorem distance_signed (s : Bool) (n : Nat) {d : Nat} (hd : 0 < d) (hfin : roundMag n d < infMag) (v : Word) :
    distance n d (roundMag n d) ≤ |signed (signOf v ^^ s) (magValue (magOf v)) * d - n| ∧
    (|signed (signOf v ^^ s) (magValue (magOf v)) * d - n| = distance n d (roundMag n d) →
      valueOf v ≠ valueOf (pack s (roundMag n d)) → roundMag n d % 2 = 0) := by
  have hw : valueOf (pack s (roundMag n d)) = (signed s (magValue (roundMag n d)) : ℚ) / 2 ^ 1074 := by
    unfold valueOf
    rw [magOf_pack_roundMag, signOf_pack_roundMag]
  by_cases hs : signOf v = s
  · have e : signed (signOf v ^^ s) (magValue (magOf v)) * (d : Int) - n = ((magValue (magOf v) * d : Nat) : Int) - n := by
      rw [hs, Bool.xor_self]
      simp [signed]
    rw [e]
    obtain ⟨h1, h2⟩ := roundMag_nearest n hd hfin (magOf v)
    refine ⟨h1, fun h hne => h2 h ?_⟩
    intro he
    apply hne
    rw [hw]
    unfold valueOf
    rw [he, hs]
  · have hx : (signOf v ^^ s) = true := by
      cases h1 : signOf v <;> cases s <;> simp_all
    have e : |signed (signOf v ^^ s) (magValue (magOf v)) * (d : Int) - n| = ((magValue (magOf v) * d + n : Nat) : Int) := by
      rw [hx]
      have : signed true (magValue (magOf v)) * (d : Int) - n = -((magValue (magOf v) * d + n : Nat) : Int) := by
        simp [signed]
        ring
      rw [this, abs_neg, Nat.abs_cast]
    rw [e]
    obtain ⟨h1, h2⟩ := roundMag_nearest n hd hfin 0
    have h0 : distance n d 0 = n := by
      unfold distance
      rw [magValue_zero]
      simp
    rw [h0] at h1 h2
    refine ⟨by push_cast; have : (0:Int) ≤ (magValue (magOf v) : Int) * d := by positivity
               omega, fun h hne => ?_⟩
    have hz : magValue (magOf v) * d = 0 := by
      have : ((magValue (magOf v) * d + n : Nat) : Int) ≤ n := by omega
      omega
    have hz' : magValue (magOf v) = 0 := (Nat.mul_eq_zero.1 hz).resolve_right (by omega)
    refine h2 (by omega) ?_
    intro hr
    apply hne
    rw [hw, ← hr, magValue_zero]
    unfold valueOf
    rw [hz']
    cases signOf v <;> cases s <;> simp [signed]

theorem isFinite_pack (s : Bool) (n d : Nat) : isFinite (pack s (roundMag n d)) = true ↔ roundMag n d < infMag := by
  rw [isFinite_iff, magOf_pack_roundMag]

/-- A packed rounding is the binary64 value nearest the fraction it rounds. -/
theorem roundsTo_pack (s : Bool) (n : Nat) {d : Nat} (hd : 0 < d) (r : ℝ)
    (hr : r = (if s then -1 else 1) * (n : ℝ) / (d * 2 ^ 1074)) : RoundsTo r (pack s (roundMag n d)) := by
  have hd' : (0 : ℝ) < d := by exact_mod_cast hd
  have hP : (0 : ℝ) < 2 ^ 1074 := by positivity
  generalize hp : (2 : ℝ) ^ 1074 = P at *
  have hDP : 0 < (d : ℝ) * P := by positivity
  have habs : |r| = n / (d * P) := by
    rw [hr]
    cases s <;> simp [abs_div, abs_of_pos hDP]
  have hthr : ((2 : ℝ) ^ 1024 - 2 ^ 970 ≤ |r|) ↔ (2 ^ 54 - 1) * (d * 2 ^ 2044) ≤ n := by
    rw [habs, le_div_iff₀ hDP]
    have e : ((2 : ℝ) ^ 1024 - 2 ^ 970) * (d * P) = (((2 ^ 54 - 1) * (d * 2 ^ 2044) : Nat) : ℝ) := by
      have h1 : (2 : ℝ) ^ 1024 = 2 ^ 54 * 2 ^ 970 := by rw [← pow_add]
      have h2 : (2 : ℝ) ^ 2044 = 2 ^ 970 * P := by rw [← hp, ← pow_add]
      push_cast
      rw [h1, h2]
      generalize (2 : ℝ) ^ 970 = Q
      norm_num
      ring
    rw [e, Nat.cast_le]
  have hval : ∀ v : Word, |(valueOf v : ℝ) - r| = (|signed (signOf v ^^ s) (magValue (magOf v)) * d - n| : Int) / (d * P) := by
    intro v
    have : (valueOf v : ℝ) - r = (if s then -1 else 1) * ((signed (signOf v ^^ s) (magValue (magOf v)) * d - n : Int) : ℝ) / (d * P) := by
      unfold valueOf
      rw [hr]
      push_cast
      rw [hp]
      cases signOf v <;> cases s <;> simp [signed] <;> field_simp <;> ring
    rw [this, abs_div, abs_mul, abs_of_pos hDP, Int.cast_abs]
    cases s <;> simp
  refine ⟨?_, ?_, fun h => ?_, fun h => ?_⟩
  · intro h
    rw [signOf_pack_roundMag]
    cases s with
    | true => rfl
    | false =>
      exfalso
      rw [hr] at h
      have : (0:ℝ) ≤ n / (d * P) := by positivity
      simp at h
      linarith
  · intro h
    rw [signOf_pack_roundMag]
    cases s with
    | false => rfl
    | true =>
      exfalso
      rw [hr] at h
      have : (0:ℝ) ≤ n / (d * P) := by positivity
      simp [neg_div] at h
      linarith
  · have hfin : roundMag n d < infMag := by
      refine lt_of_le_of_ne (roundMag_le n d) fun he => ?_
      have := hthr.2 ((roundMag_eq_infMag_iff n hd).1 he)
      linarith
    have hself : |signed (signOf (pack s (roundMag n d)) ^^ s) (magValue (magOf (pack s (roundMag n d)))) * d - n| = distance n d (roundMag n d) := by
      rw [magOf_pack_roundMag, signOf_pack_roundMag, Bool.xor_self]
      simp [signed, distance]
    refine ⟨(isFinite_pack s n d).2 hfin, fun v _ => ?_, fun v _ hne htie => ?_⟩
    · rw [hval, hval, hself]
      exact div_le_div_of_nonneg_right (by exact_mod_cast (distance_signed s n hd hfin v).1) hDP.le
    · rw [hval, hval, hself, div_left_inj' hDP.ne'] at htie
      have := (distance_signed s n hd hfin v).2 (by exact_mod_cast htie) hne
      rw [getLsbD_zero_eq, magOf_pack_roundMag]
      simp [this]
  · rw [isInf_iff, magOf_pack_roundMag]
    exact (roundMag_eq_infMag_iff n hd).2 (hthr.1 h)

theorem roundsTo_zero (s : Bool) : RoundsTo 0 (zeroWord s) := by
  have := roundsTo_pack s 0 (d := 1) (by norm_num) 0 (by simp)
  have e : roundMag 0 1 = 0 := by decide
  rwa [e] at this

/-! ### What is not finite stays so (R99) -/

/-- A NaN is not finite. -/
theorem not_finite_of_isNaN {x : Word} (h : isNaN x = true) : isFinite x = false := by
  cases hh : isFinite x with
  | false => rfl
  | true => rw [isNaN_of_finite hh] at h; cases h

/-- What is not finite is a NaN or an infinity. -/
theorem isNaN_or_isInf_of_not_finite {x : Word} (h : isFinite x = false) : isNaN x = true ∨ isInf x = true := by
  rcases class_cases x with h1|h1|h1
  · exact .inl h1
  · exact .inr h1
  · rw [h] at h1; cases h1

/-- A quotient of two words that are not finite is a NaN. -/
theorem fdiv_both_not_finite {x y : Word} (hx : isFinite x = false) (hy : isFinite y = false) : isNaN (fdiv x y) = true := by
  rcases isNaN_or_isInf_of_not_finite hx with h | h
  · rw [fdiv_nan (.inl h)]; decide
  rcases isNaN_or_isInf_of_not_finite hy with h' | h'
  · rw [fdiv_nan (.inr h')]; decide
  unfold fdiv; rw [f64_of_inf h, f64_of_inf (by assumption)]; dsimp only; decide

/-- 1 plus what is not finite is not finite. -/
theorem one_add_not_finite {x : Word} (hx : isFinite x = false) : isFinite (fadd oneWord x) = false := by
  rcases isNaN_or_isInf_of_not_finite hx with h | h
  · rw [fadd_nan (.inr h)]; decide
  · unfold fadd; rw [f64_of_inf h, f64_of_finite (by decide : isFinite oneWord = true)]
    generalize signOf x = b; cases b <;> decide

/-- 1 minus what is not finite is not finite. -/
theorem one_sub_not_finite {x : Word} (hx : isFinite x = false) : isFinite (fsub oneWord x) = false := one_add_not_finite (by rwa [isFinite_fneg])

/-- A product with a first factor that is not finite is not finite. -/
theorem fmul_not_finite {x A : Word} (hx : isFinite x = false) : isFinite (fmul x A) = false := by
  rcases isNaN_or_isInf_of_not_finite hx with h | h
  · rw [fmul_nan (.inl h)]; decide
  rcases class_cases A with h2|h2|h2
  · rw [fmul_nan (.inr h2)]; decide
  · unfold fmul; rw [f64_of_inf h, f64_of_inf h2]; dsimp only
    generalize (signOf x ^^ signOf A) = b; cases b <;> decide
  · unfold fmul; rw [f64_of_inf h, f64_of_finite h2]; dsimp only
    split
    · decide
    · generalize (signOf x ^^ signOf A) = b; cases b <;> decide

/-- A quotient with a numerator that is not finite is not finite. -/
theorem fdiv_not_finite {x A : Word} (hx : isFinite x = false) : isFinite (fdiv x A) = false := by
  rcases isNaN_or_isInf_of_not_finite hx with h | h
  · rw [fdiv_nan (.inl h)]; decide
  rcases class_cases A with h2|h2|h2
  · rw [fdiv_nan (.inr h2)]; decide
  · unfold fdiv; rw [f64_of_inf h, f64_of_inf (by assumption)]; dsimp only; decide
  · unfold fdiv; rw [f64_of_inf h, f64_of_finite h2]; dsimp only
    generalize (signOf x ^^ signOf A) = b; cases b <;> decide

/-! ### Neighbouring values -/

/-- Between two different finite values with even patterns there is a third. -/
theorem exists_value_between {w w' : Word} (hw : isFinite w = true) (hw' : isFinite w' = true) (hlt : valueOf w < valueOf w')
    (hp : magOf w % 2 = 0) (hp' : magOf w' % 2 = 0) : ∃ v, isFinite v = true ∧ valueOf w < valueOf v ∧ valueOf v < valueOf w' := by
  have hval : ∀ s m, m < 2^63 → valueOf (pack s m) = (signed s (magValue m) : ℚ) / 2^1074 := by
    intro s m h; unfold valueOf; rw [magOf_pack s h, signOf_pack s h]
  have hlt' : signed (signOf w) (magValue (magOf w)) < signed (signOf w') (magValue (magOf w')) := by
    unfold valueOf at hlt
    rw [div_lt_div_iff_of_pos_right (by positivity)] at hlt
    exact_mod_cast hlt
  have hfin := isFinite_iff.1 hw
  have hfin' := isFinite_iff.1 hw'
  have hi : infMag < 2^63 := infMag_lt
  have fin : ∀ s m, m < infMag → isFinite (pack s m) = true := by
    intro s m h; rw [isFinite_iff, magOf_pack s (by omega)]; exact h
  have lift : ∀ v, (signed (signOf w) (magValue (magOf w)) < signed (signOf v) (magValue (magOf v))) → (signed (signOf v) (magValue (magOf v)) < signed (signOf w') (magValue (magOf w'))) → valueOf w < valueOf v ∧ valueOf v < valueOf w' := by
    intro v h1 h2
    unfold valueOf
    rw [div_lt_div_iff_of_pos_right (by positivity), div_lt_div_iff_of_pos_right (by positivity)]
    exact ⟨by exact_mod_cast h1, by exact_mod_cast h2⟩
  have mono := fun {a b : Nat} (h : a < b) => magValue_strictMono h
  -- choose v
  cases hs : signOf w with
  | false =>
    cases hs' : signOf w' with
    | true =>
      exfalso; rw [hs, hs'] at hlt'; simp [signed] at hlt'; omega
    | false =>
      rw [hs, hs'] at hlt'
      simp [signed] at hlt'
      have h1 : magOf w < magOf w' := magValue_strictMono.lt_iff_lt.1 hlt'
      refine ⟨pack false (magOf w + 1), fin _ _ (by omega), lift _ ?_ ?_⟩ <;> rw [magOf_pack _ (by omega), signOf_pack _ (by omega)]
      · rw [hs]; simp [signed]; exact mono (by omega)
      · rw [hs']; simp [signed]; exact mono (by omega)
  | true =>
    rcases Nat.eq_zero_or_pos (magOf w) with h0 | h0
    · cases hs' : signOf w' with
      | true => exfalso; rw [hs, hs', h0, magValue_zero] at hlt'; simp [signed] at hlt'; omega
      | false =>
        rw [hs, hs', h0, magValue_zero] at hlt'
        simp [signed] at hlt'
        have h1 : 0 < magOf w' := by rw [Nat.pos_iff_ne_zero]; intro h; rw [h, magValue_zero] at hlt'; omega
        refine ⟨pack false 1, fin _ _ (by decide), lift _ ?_ ?_⟩ <;> rw [magOf_pack _ (by omega), signOf_pack _ (by omega)]
        · rw [hs, h0, magValue_zero]; decide
        · rw [hs']; simp [signed]; exact mono (by omega)
    · refine ⟨pack true (magOf w - 1), fin _ _ (by omega), lift _ ?_ ?_⟩ <;> rw [magOf_pack _ (by omega), signOf_pack _ (by omega)]
      · rw [hs]; simp [signed]; exact mono (by omega)
      · have h2 : 0 < magValue (magOf w - 1) := by
          rw [Nat.pos_iff_ne_zero, Ne, magValue_eq_zero]; omega
        cases hs' : signOf w' with
        | false => simp [signed]; omega
        | true =>
          rw [hs, hs'] at hlt'
          simp [signed] at hlt' ⊢
          have h1 : magOf w' < magOf w := magValue_strictMono.lt_iff_lt.1 hlt'
          exact mono (by omega)

end Sys2Proof.Machine
end

