-- ==== Sys2Proof/Laws/Design.lean ====
section
/-! SUPPORT. The two designs and `ExecCmd` in the terms of Safety.lean, each said once. -/

namespace Sys2Proof.Machine

/-- Admitted operands pass every check. -/
theorem validate_of_admitted {f q fs : Word} (h : OperandsAdmitted f q fs) : validate f q fs = none :=
  (validate_eq_none_iff f q fs).2 h

/-- What is not greater than 0: ±0, a negative value, a NaN (R84, R87). -/
theorem zero_lt_false (x : Word) : flt 0x0000000000000000 x = false ↔ isZero x = true ∨ signOf x = true ∨ isNaN x = true := by
  rcases class_cases x with h | h | h
  · have := flt_nan (a := 0) (.inr h); simp [h]; exact this
  · have e := infWord_of_isInf h
    rw [e]
    cases signOf x <;> decide
  · have h0 : isFinite (0 : Word) = true := by decide
    have hn : isNaN x = false := by
      cases hh : isNaN x with
      | false => rfl
      | true => rw [isNaN_iff] at hh; rw [isFinite_iff] at h; omega
    unfold flt
    rw [f64_of_finite h0, f64_of_finite h]
    have e0 : signed (signOf (0:Word)) (magValue (magOf (0:Word))) = 0 := by decide
    simp only [e0, hn]
    have := @magValue_eq_zero (magOf x)
    rw [isZero_iff, ← this]
    cases signOf x <;> simp [signed]

theorem normalise_rawPk (s : State) : normalise (rawPk (amplitude openMath s.gainDb) (openMath.fcos (angle s.freq s.fs)) (alphaOf (openMath.fsin (angle s.freq s.fs)) s.q)) = s.peakingCoeffs := by
  simp only [State.peakingCoeffs, rawPk, normalise, amplitude, alphaOf, angle, minusTwice, oneWord, twoWord, fortyWord, twoPi]

theorem normalise_rawLp (s : State) : normalise (rawLp (openMath.fcos (angle s.freq s.fs)) (alphaOf (openMath.fsin (angle s.freq s.fs)) s.q)) = s.lowPassCoeffs := by
  simp only [State.lowPassCoeffs, rawLp, normalise, alphaOf, angle, minusTwice, oneWord, twoWord, twoPi]

/-- DESIGN.PK in full: the first failing check, or the result check of its coefficients. -/
theorem execDesignPk_eq (s : State) : exec .designPk s = .next (s.complete (match validate s.freq s.q s.fs with | some e => .fail e | none => checked s.peakingCoeffs)) := by
  rw [← normalise_rawPk]; rfl

/-- DESIGN.LP in full. -/
theorem execDesignLp_eq (s : State) : exec .designLp s = .next (s.complete (match validate s.freq s.q s.fs with | some e => .fail e | none => checked s.lowPassCoeffs)) := by
  rw [← normalise_rawLp]; rfl

/-- A failing operand check fails either command. -/
theorem command_fails {i : Instr} (hi : IsCommand i) {s : State} {e : Cause} (h : validate s.freq s.q s.fs = some e) : exec i s = .next (s.fail e) := by
  rcases hi with rfl | rfl
  · rw [execDesignPk_eq, h]; rfl
  · rw [execDesignLp_eq, h]; rfl

/-- A command completes with what its operand checks and the result check of its coefficients say. -/
theorem command_eq {i : Instr} (hi : IsCommand i) (s : State) : ∃ c : Coeffs, exec i s =
    .next (s.complete (match validate s.freq s.q s.fs with | some e => .fail e | none => checked c)) := by
  rcases hi with rfl | rfl
  · exact ⟨_, execDesignPk_eq s⟩
  · exact ⟨_, execDesignLp_eq s⟩

/-- A command admits exactly the operands that pass every check (R84 to R88). -/
theorem admits_iff {i : Instr} (hi : IsCommand i) (s : State) :
    Admits i s ↔ OperandsAdmitted s.freq s.q s.fs := by
  obtain ⟨c, hc⟩ := command_eq hi s
  constructor
  · rintro ⟨t, ht, hs⟩
    rw [hc] at ht
    cases ht
    refine (validate_eq_none_iff _ _ _).1 ?_
    cases hv : validate s.freq s.q s.fs with
    | none => rfl
    | some e =>
      rw [hv] at hs
      change statusWord false e (causeCode e) = _ ∨ statusWord false e (causeCode e) = _ at hs
      rcases validate_cause hv with rfl | rfl | rfl | rfl | rfl <;> exact absurd hs (by decide)
  · intro h
    refine ⟨_, hc, ?_⟩
    rw [validate_of_admitted h]
    dsimp only
    unfold checked
    split
    · exact .inl rfl
    · exact .inr rfl

/-- A write to CMD is `ExecCmd`. -/
theorem execWr_cmd (v : Word) (s : State) : exec (.wr 0x20 v) s = execCmd v s := rfl

/-- A legal command word, in full. -/
theorem execCmd_legal {v : Word} {s : State} (h : v.toNat < 2) : exec (.wr 0x20 v) s = .next (s.complete (match validate s.freq s.q s.fs with | some e => .fail e | none => checked (if v.toNat = 0 then s.peakingCoeffs else s.lowPassCoeffs))) := by
  have : v = 0 ∨ v = 1 := by
    have : v.toNat = 0 ∨ v.toNat = 1 := by omega
    rcases this with h | h
    · exact .inl (BitVec.eq_of_toNat_eq h)
    · exact .inr (BitVec.eq_of_toNat_eq h)
  rcases this with rfl | rfl <;> rfl

/-- An illegal command word, in full. -/
theorem execCmd_illegal {v : Word} {s : State} (h : 2 ≤ v.toNat) : exec (.wr 0x20 v) s = .next (s.failedWith (if 4 ≤ v.toNat then 0x23 else 0x13)) := by
  by_cases h4 : 4 ≤ v.toNat
  · rw [if_pos h4, execWr_cmd, execCmd, decodeWord_reserved h4]; rfl
  · rw [if_neg h4]
    have : v.toNat = 2 ∨ v.toNat = 3 := by omega
    rcases this with h | h
    · obtain rfl : v = 2 := BitVec.eq_of_toNat_eq h
      rfl
    · obtain rfl : v = 3 := BitVec.eq_of_toNat_eq h
      rfl

end Sys2Proof.Machine
end

