-- ==== Sys2Proof/Laws/PerInstr.lean ====
section
/-! SUPPORT. Statements made of every instruction, one lemma per constructor. -/

namespace Sys2Proof.Laws.TableRow

/-- The `mask` and `match` of an instruction's row in spec/opcode_table.json. -/
def row : Instr → Nat × Nat
  | .designPk => (0xFFFFFFFFFFFFFFFF, 0x0000000000000000)
  | .designLp => (0xFFFFFFFFFFFFFFFF, 0x0000000000000001)
  | .rd _ => (0x87, 0x00)
  | .wr _ _ => (0x87, 0x80)

/-- The bits of a well-formed instruction's encoding meet its row: masked, they are the row's match. (A
command word is its eight bytes, the bits of RD and WR are the descriptor byte.) -/
def Statement (i : Instr) : Prop :=
  i.wf = true →
    (match i.format with
      | .cmdw => natOfBytes (encode i)
      | .bus8 => natOfBytes ((encode i).take 1)) &&& (row i).1 = (row i).2

theorem designPk : Statement .designPk := fun _ => by decide

theorem designLp : Statement .designLp := fun _ => by decide

theorem rd (off : Offset) : Statement (.rd off) := by
  have h : ∀ o : Offset, Offset.aligned o = true → natOfBytes [descriptor false o] &&& 0x87 = 0x00 := by decide
  exact h off

theorem wr (off : Offset) (data : Word) : Statement (.wr off data) := by
  have h : ∀ o : Offset, Offset.aligned o = true → natOfBytes [descriptor true o] &&& 0x87 = 0x80 := by decide
  exact h off

end Sys2Proof.Laws.TableRow
end

