-- ==== Sys2Proof/Laws/Platform.lean ====
section
/-! SUPPORT. The windows of the instances (R40, R152). -/

namespace Sys2Proof.Machine

/-- Windows rise with the number of the instance. -/
theorem windowIndex_lt {j k : Nat} (h : j < k) : windowIndex j < windowIndex k := by
  induction h with
  | refl => simp [windowIndex]; omega
  | step h ih => simp [windowIndex] at *; omega

/-- What an access becomes at an instance, in full. -/
theorem routeTo_eq_some_iff {k : Nat} {b : BusAccess} {a : Access} : routeTo k b = some a ↔
    bqdBase k ≤ b.addr ∧ b.addr < bqdBase k + 128 ∧
      a = ⟨b.isWrite, BitVec.ofNat 7 (b.addr - bqdBase k), b.size, b.data⟩ := by
  unfold routeTo
  split
  · rename_i h
    simp [h, eq_comm]
  · rename_i h
    constructor
    · intro e
      cases e
    · rintro ⟨h1, h2, -⟩
      exact absurd ⟨h1, h2⟩ h

/-- What an access does to each instance: it joins the port of the one that sees it. -/
theorem getElem?_platformDeliver (b : BusAccess) (p : List State) (k : Nat) :
    (platformDeliver b p)[k]? = p[k]?.map fun s =>
      match routeTo k b with
      | some a => s.present [a]
      | none => s :=
  List.getElem?_mapIdx ..

end Sys2Proof.Machine
end

