-- ==== Sys2Proof/Tests/Slice0.lean ====
section
/-! SUPPORT. The model's own tests. Expected results come from the spec: the encodings of
30_encoding.md, the vectors of 95_test_vectors.md (named in each test's comment), the rules named. The
witnesses at the end meet the hypotheses of the obligations. -/

namespace Sys2Proof.Tests

open Sys2Proof.Machine

/-- A machine after reset with the four operands written. -/
def withOperands (g f q fs : Word) : State := { State.reset with gainDb := g, freq := f, q := q, fs := fs }

/-- The state an outcome leaves, where there is one. -/
def next? : Host.Outcome State Fault Refusal → Option State
  | .next t => some t
  | .fault _ => none
  | .refused _ => none

/-- Whether an outcome is the refused access. -/
def isBusError : Host.Outcome State Fault Refusal → Bool
  | .next _ => false
  | .fault .busError => true
  | .refused _ => false

/-- Open functions that give one value each: the intermediate values of 95_test_vectors.md. -/
def givenMath (s c A : Word) : MathLib := ⟨fun _ => s, fun _ => c, fun _ => A⟩

/-! ### Well-formedness: each check refuses an ill-formed term -/

/-- R42, BUS-11: offset 0x2C is no read of the table. -/
theorem test_wf_refuses_misaligned_read : Instr.wf (.rd 0x2C) = false := by decide

/-- R42, BUS-12: offset 0x24 is no write of the table. -/
theorem test_wf_refuses_misaligned_write : Instr.wf (.wr 0x24 0) = false := by decide

theorem test_wf_accepts : Instr.wf .designPk = true ∧ Instr.wf .designLp = true ∧
    Instr.wf (.rd 0x78) = true ∧ Instr.wf (.wr 0x00 0xFFFFFFFFFFFFFFFF) = true := by decide

/-! ### Decoding, from bits written out -/

/-- R60: KIND = 0, all other bits 0. -/
theorem test_decode_designPk :
    decode .cmdw [0b00000000, 0, 0, 0, 0, 0, 0, 0] = .ok (.designPk, []) := by decide

/-- R60: KIND = 1, all other bits 0. -/
theorem test_decode_designLp :
    decode .cmdw [0b00000001, 0, 0, 0, 0, 0, 0, 0] = .ok (.designLp, []) := by decide

/-- R70: 0 :: 0101000, `rd STATUS` is `28`; and 0 :: 1111000. -/
theorem test_decode_rd : decode .bus8 [0b00101000] = .ok (.rd 0x28, []) ∧
    decode .bus8 [0b01111000, 0xAA] = .ok (.rd 0x78, [0xAA]) := by decide

/-- R70: 1 :: 0011000, `wr FS, #44100.0` is `98 40E5888000000000`. -/
theorem test_decode_wr :
    decode .bus8 [0b10011000, 0x40, 0xE5, 0x88, 0x80, 0x00, 0x00, 0x00, 0x00] =
      .ok (.wr 0x18 0x40E5888000000000, []) := by decide

/-- R61, R70: what is no instruction is refused by name. -/
theorem test_decode_refuses :
    decode .cmdw [0b00000010, 0, 0, 0, 0, 0, 0, 0] = .error (.illegal .illegalKind) ∧
    decode .cmdw [0b00000011, 0, 0, 0, 0, 0, 0, 0] = .error (.illegal .illegalKind) ∧
    decode .cmdw [0b00000110, 0, 0, 0, 0, 0, 0, 0] = .error (.illegal .reservedBits) ∧
    decode .cmdw [0, 0, 0, 0, 0, 0, 0, 0b10000000] = .error (.illegal .reservedBits) ∧
    decode .cmdw [0, 0, 0] = .error .truncated ∧
    decode .bus8 [0b00101100] = .error .misaligned ∧
    decode .bus8 [0b10011000, 0x40] = .error .truncated ∧
    decode .bus8 [] = .error .truncated ∧
    decodeAccess ⟨false, 0x28, 4, 0⟩ = .error .badWidth := by decide

/-- R70: the byte string of the first accesses of program P1 of 95_test_vectors.md. -/
theorem test_read_program :
    readProgram 3 [0xA0, 0, 0, 0, 0, 0, 0, 0, 0, 0x28, 0x98, 0x40, 0xE5, 0x88, 0x80, 0, 0, 0, 0] =
      some [⟨true, 0x20, 8, 0⟩, ⟨false, 0x28, 8, 0⟩, ⟨true, 0x18, 8, 0x40E5888000000000⟩] := by decide

/-- The four rows of spec/opcode_table.json at their match. -/
theorem test_table_words : decodeTableWord 64 0x0 = some .designPk ∧ decodeTableWord 64 0x1 = some .designLp ∧
    decodeTableWord 8 0x00 = some (.rd 0x00) ∧ decodeTableWord 8 0x80 = some (.wr 0x00 0) := by decide

/-! ### DESIGN.PK -/

/-- PK-3 of 95_test_vectors.md: w0, and the whole design for that vector's s, c and A. -/
theorem test_designPk_boost : angle 0x408F400000000000 0x40E5888000000000 = 0x3FC23CA61DCC76A2 ∧
    peakingDesign (givenMath 0x3FC22CDEABEC443D 0x3FEFACFE8CDED93F 0x3FF699C0F7E86E10)
      0x4018000000000000 0x408F400000000000 0x40113D70A3D70A3D 0x40E5888000000000 =
    .commit ⟨0x3FF02EFE0188FABC, 0xBFFF4F84F4C4DFD1, 0x3FEEE526E6BA1A12, 0xBFFF4F84F4C4DFD1,
      0x3FEF4322E9CC0F8B⟩ := by decide +kernel

/-- PK-6 of 95_test_vectors.md: the highest band, where c < 0. -/
theorem test_designPk_highest_band :
    peakingDesign (givenMath 0x3FD52F68A750F18B 0xBFEE322B6FF78AF5 0x3FE7FF2224115D9A)
      0xC014000000000000 0x40D3388000000000 0x40113D70A3D70A3D 0x40E5888000000000 =
    .commit ⟨0x3FEF5158428669AB, 0x3FFCB999A4C819D3, 0x3FED9085518B5B2C, 0x3FFCB999A4C819D3,
      0x3FECE1DD9411C4D8⟩ := by decide +kernel

/-! ### DESIGN.LP -/

/-- LP-1 of 95_test_vectors.md. -/
theorem test_designLp_reverb :
    lowPassDesign (givenMath 0x3FC22CDEABEC443D 0x3FEFACFE8CDED93F 0x3FF0000000000000)
      0x408F400000000000 0x3FE69FBE76C8B439 0x40E5888000000000 =
    .commit ⟨0x3F72DB936615A75E, 0x3F82DB936615A75E, 0x3F72DB936615A75E, 0xBFFCC8FF51C70AF2,
      0x3FEA28DB3EBEC31D⟩ := by decide +kernel

/-- LP-7 of 95_test_vectors.md: alpha > 1. -/
theorem test_designLp_small_q :
    lowPassDesign (givenMath 0x3FE4EA96A42CC218 0x3FE837C727A17037 0x3FF0000000000000)
      0x40B3880000000000 0x3F847AE147AE147B 0x40E5888000000000 =
    .commit ⟨0x3F6D92FB7E5EFB63, 0x3F7D92FB7E5EFB63, 0x3F6D92FB7E5EFB63, 0xBFA7023544D622BB,
      0xBFEE1990BDB921E7⟩ := by decide +kernel

/-! ### RD and WR -/

/-- BUS-1, BUS-2 of 95_test_vectors.md: CMD and a reserved offset read as zero. -/
theorem test_rd_reads_zero :
    ((next? (exec (.rd 0x20) State.reset)).map (·.readData) = some (some 0)) ∧
    ((next? (exec (.rd 0x58) State.reset)).map (·.readData) = some (some 0)) := by decide

/-- BUS-10, BUS-11 of 95_test_vectors.md: BusError. -/
theorem test_rd_refused :
    isBusError (step (State.reset.presentFirst (.access ⟨false, 0x28, 4, 0⟩))) = true ∧
    isBusError (exec (.rd 0x2C) State.reset) = true := by decide

/-- BUS-4, BUS-7 of 95_test_vectors.md: STATUS ignores a write, Q takes a NaN bit for bit. -/
theorem test_wr_register :
    next? (exec (.wr 0x28 0xFFFFFFFFFFFFFFFF) State.reset) = some State.reset ∧
    (next? (exec (.wr 0x10 0x7FF8000000000001) State.reset)).map (·.q) = some 0x7FF8000000000001 := by
  decide

/-- ERR-14, ERR-15, ERR-19 of 95_test_vectors.md: the order of the checks. -/
theorem test_wr_command_priority :
    (next? (exec (.wr 0x20 0x0) (withOperands 0x4008000000000000 0 0 0))).map (·.status) = some 0x32 ∧
    (next? (exec (.wr 0x20 0x0) (withOperands 0x4008000000000000 0x40DD4C0000000000 0xBFF0000000000000
      0x40E5888000000000))).map (·.status) = some 0x51 ∧
    (next? (exec (.wr 0x20 0x6) State.reset)).map (·.status) = some 0x23 := by decide +kernel

/-! ### Arithmetic -/

/-- R12, R99: 1 + 2^-53 is a tie and stays 1, 1 + 3 · 2^-53 is a tie and goes up to the even 1 + 2^-51. -/
theorem test_fadd_ties_to_even : fadd 0x3FF0000000000000 0x3CA0000000000000 = 0x3FF0000000000000 ∧
    fadd 0x3FF0000000000001 0x3CA0000000000000 = 0x3FF0000000000002 := by decide +kernel

/-- R89, ERR-20: the least subnormal halved is a tie and goes to +0. -/
theorem test_fdiv_underflows : fdiv 0x0000000000000001 0x4000000000000000 = 0x0000000000000000 := by
  decide +kernel

/-- R90: 2π · 4e307 overflows. -/
theorem test_fmul_overflows : fmul 0x401921FB54442D18 0x7FCC7B1F3CAC7433 = 0x7FF0000000000000 := by
  decide +kernel

/-! ### Witnesses: states and operands that meet the hypotheses of the obligations, each clause at the
ends of its range. Obligations without a hypothesis need none. -/

/-- Admitted operands whose w0 underflows to +0 (PK-12 of 95_test_vectors.md with a gain of +0), so that
R100 and R101 fix every open value. -/
def vanishing : State :=
  { State.reset with gainDb := 0, freq := 0x1, q := 0x40113D70A3D70A3D, fs := 0x7E37E43C8800759C }

/-- Admitted operands whose w0 overflows (ERR-26 of 95_test_vectors.md). -/
def overflowing (g : Word) : State :=
  withOperands g 0x7FCC7B1F3CAC7433 0x40113D70A3D70A3D 0x7FE1CCF385EBC8A0

/-- The operands 1000 Hz, q = 4.31, fs = 44100 with any gain. -/
def ordinary (g : Word) : State := withOperands g 0x408F400000000000 0x40113D70A3D70A3D 0x40E5888000000000

/-- A state as a successful command may leave it, with one event at the port. -/
def afterSuccess (e : PortEvent) : State :=
  { State.reset with status := 0x100, b0 := 0x3FF0000000000000, a2 := 0x3FF0000000000000, port := [e] }

theorem witness_DecodeOfEncodeIsIdentity : Instr.wf .designPk = true ∧ Instr.wf (.rd 0x00) = true ∧
    Instr.wf (.rd 0x78) = true ∧ Instr.wf (.wr 0x78 0xFFFFFFFFFFFFFFFF) = true := by decide

theorem witness_DecodedBytesAreTheEncoding :
    decode .cmdw [1, 0, 0, 0, 0, 0, 0, 0, 0x55] = .ok (.designLp, [0x55]) ∧
    decode .bus8 [0xF8, 0, 0, 0, 0, 0, 0, 0, 0xFF] = .ok (.wr 0x78 0xFF, []) := by decide

theorem witness_CommandWordsDecodeAsTheirKind :
    4 ≤ (0x4 : Word).toNat ∧ 4 ≤ (0xFFFFFFFFFFFFFFFF : Word).toNat ∧ ¬ 4 ≤ (0x3 : Word).toNat := by decide

theorem witness_StepRunsTheDecodedInstruction :
    decodeAccess ⟨false, 0x78, 8, 0⟩ = .ok (.rd 0x78) ∧ decodeCommand 0x1 = .ok .designLp ∧
    decode .bus8 [0x28] = .ok (.rd 0x28, []) ∧
    decode .cmdw [0, 0, 0, 0, 0, 0, 0, 0] = .ok (.designPk, []) := by decide

theorem witness_StepRunsThePresentedTableWord :
    decodeTableWord 64 0x1 = some .designLp ∧ decodeTableWord 8 0xF8 = some (.wr 0x78 0) := by decide

theorem witness_EmptyPortChangesNothing : State.reset.port = [] := by decide

theorem witness_ReadReturnsTheRegister : (0x58 : Offset).toNat % 8 = 0 ∧ 0x58 ≤ (0x58 : Offset).toNat ∧
    (0x78 : Offset).toNat % 8 = 0 ∧ 0x58 ≤ (0x78 : Offset).toNat ∧
    ∃ t, exec (.rd 0x78) State.reset = .next t := ⟨by decide, by decide, by decide, by decide, _, rfl⟩

theorem witness_WriteFollowsTheRegisterMap : 4 ≤ (0x4 : Word).toNat ∧ (0x2 : Word).toNat = 2 ∧
    (0x3 : Word).toNat = 3 ∧ (0x28 : Offset).toNat % 8 = 0 ∧ 0x28 ≤ (0x28 : Offset).toNat ∧
    (0x78 : Offset).toNat % 8 = 0 ∧ 0x28 ≤ (0x78 : Offset).toNat := by decide

theorem witness_RefusedAccessFaults :
    (afterSuccess (.access ⟨false, 0x28, 4, 0⟩)).port = .access ⟨false, 0x28, 4, 0⟩ :: [] ∧
    (4 : Nat) ≠ 8 ∧ (0x24 : Offset).toNat % 8 ≠ 0 ∧ (0x7F : Offset).toNat % 8 ≠ 0 := by decide

theorem witness_OperandWriteReadsBack : (0x00 : Offset).toNat % 8 = 0 ∧ (0x00 : Offset).toNat < 0x20 ∧
    (0x18 : Offset).toNat % 8 = 0 ∧ (0x18 : Offset).toNat < 0x20 ∧ ¬ (0x20 : Offset).toNat < 0x20 ∧
    (0x78 : Offset).toNat % 8 = 0 ∧ (0x78 : Offset) ≠ 0x18 := by decide

theorem witness_ByteLanesAreLittleEndian : (0x00 : Offset).toNat % 8 = 0 ∧ (0x78 : Offset).toNat % 8 = 0 ∧
    (0 : Nat) < 8 ∧ (7 : Nat) < 8 := by decide

theorem witness_CommandUsesTheValuesWrittenBeforeIt : ∃ s : State, s.port =
    [.access ⟨true, 0x00, 8, 1⟩, .access ⟨true, 0x08, 8, 2⟩, .access ⟨true, 0x10, 8, 3⟩,
      .access ⟨true, 0x18, 8, 4⟩, .command 1] := ⟨{ State.reset with port := _ }, rfl⟩

theorem vanishing_admitted : OperandsAdmitted vanishing.freq vanishing.q vanishing.fs := by
  unfold OperandsAdmitted
  decide +kernel

theorem overflowing_admitted (g : Word) :
    OperandsAdmitted (overflowing g).freq (overflowing g).q (overflowing g).fs := by
  change OperandsAdmitted 0x7FCC7B1F3CAC7433 0x40113D70A3D70A3D 0x7FE1CCF385EBC8A0
  unfold OperandsAdmitted
  decide +kernel

theorem ordinary_admitted (g : Word) : OperandsAdmitted (ordinary g).freq (ordinary g).q (ordinary g).fs := by
  change OperandsAdmitted 0x408F400000000000 0x40113D70A3D70A3D 0x40E5888000000000
  unfold OperandsAdmitted
  decide +kernel

theorem witness_PeakingDesignCompletes : vanishing.peakingCoeffs.allFinite = true := by decide +kernel

theorem witness_LowPassDesignCompletes : vanishing.lowPassCoeffs.allFinite = true := by decide +kernel

theorem witness_SampleRateNotPositiveFails : IsCommand .designPk ∧ IsCommand .designLp ∧
    [(0x0 : Word), 0x8000000000000000, 0xC0E5888000000000, 0xFFF0000000000000, 0x7FF8000000000000].all
      (fun x => !flt 0x0000000000000000 x) = true := ⟨.inl rfl, .inr rfl, by decide +kernel⟩

theorem witness_InfiniteSampleRateFails : ∃ s : State, s.fs = 0x7FF0000000000000 :=
  ⟨withOperands 0 0 0 0x7FF0000000000000, rfl⟩

/-- f = +0, -0, NaN, and f = fs / 2 (ERR-1 to ERR-4 of 95_test_vectors.md). -/
theorem witness_FrequencyOutOfRangeFails : flt 0x0000000000000000 0x40E5888000000000 = true ∧
    isFinite 0x40E5888000000000 = true ∧
    [(0x0 : Word), 0x8000000000000000, 0x7FF8000000000000, 0x40D5888000000000].all (fun f =>
      !(flt 0x0000000000000000 f && flt f (fdiv 0x40E5888000000000 0x4000000000000000))) = true := by
  decide +kernel

/-- q = +0, -1, NaN (ERR-6 to ERR-8), and +infinity (ERR-9), on `ordinary` operands otherwise. -/
theorem witness_QNotPositiveFails_InfiniteQFails :
    [(0x0 : Word), 0xBFF0000000000000, 0x7FF8000000000000].all (fun x => !flt 0x0000000000000000 x) = true ∧
    ∃ s : State, flt 0x0000000000000000 s.fs = true ∧ isFinite s.fs = true ∧
      flt 0x0000000000000000 s.freq = true ∧ flt s.freq (fdiv s.fs 0x4000000000000000) = true ∧
      s.q = 0x7FF0000000000000 :=
  ⟨by decide +kernel, { ordinary 0 with q := 0x7FF0000000000000 }, by decide +kernel⟩

theorem witness_NonFiniteResultFails : (overflowing 0).peakingCoeffs.allFinite = false ∧
    (overflowing 0).lowPassCoeffs.allFinite = false := by decide +kernel

/-- A failure and a success of an instruction named in the frames. -/
theorem witness_FailureWritesStatusAndClearsResultsOnly :
    ∃ t, exec (.wr 0x20 0x2) vanishing = .next t ∧ t.status ≠ 0x0000000000000100 := ⟨_, rfl, by decide⟩

theorem witness_CommandsKeepTheOperands_RepeatedCommandChangesNothing :
    (∃ t, exec .designLp vanishing = .next t) ∧ ∃ t, exec (.wr 0x20 0xFFFFFFFFFFFFFFFF) vanishing = .next t :=
  ⟨⟨_, rfl⟩, _, rfl⟩

/-- Two states with the same operands (the first obligation) and with another gain (the second). -/
theorem witness_CommandsDependOnTheOperandsAlone_LowPassIgnoresTheGain :
    (∃ s s' : State, s ≠ s' ∧ s.gainDb = s'.gainDb ∧ s.freq = s'.freq ∧ s.q = s'.q ∧ s.fs = s'.fs) ∧
    (ordinary 0).gainDb ≠ (ordinary 1).gainDb ∧ (ordinary 0).freq = (ordinary 1).freq ∧
    (ordinary 0).q = (ordinary 1).q ∧ (ordinary 0).fs = (ordinary 1).fs :=
  ⟨⟨ordinary 0, { ordinary 0 with status := 0x13 }, by decide⟩, by decide⟩

/-- A peaking design that succeeds, at each of the two zero gains. -/
theorem witness_PeakingB1EqualsA1_PeakingAtZeroGainIsUnity :
    (∃ t, exec .designPk vanishing = .next t ∧ t.status = 0x0000000000000100) ∧
    ∃ t, exec .designPk { vanishing with gainDb := 0x8000000000000000 } = .next t ∧
      t.status = 0x0000000000000100 :=
  ⟨⟨_, rfl, by decide +kernel⟩, _, rfl, by decide +kernel⟩

/-- g = NaN, +infinity and -infinity (ERR-21, ERR-24), and 1e6, -1e6 (ERR-22, ERR-23). -/
theorem witness_ExtremeAmplitudeFailsPeaking :
    isNaN (openMath.fpow10 (fdiv 0x7FF8000000000000 0x4044000000000000)) = true ∧
    openMath.fpow10 (fdiv 0x412E848000000000 0x4044000000000000) = 0x7FF0000000000000 ∧
    openMath.fpow10 (fdiv 0xC12E848000000000 0x4044000000000000) = 0x0000000000000000 ∧
    isFinite 0x7FF0000000000000 = false ∧ isFinite 0xFFF0000000000000 = false := by decide +kernel

/-- B1 = +0 on `vanishing`; B1 = 0x3F82DB936615A75E (LP-1), far above 2^-1021, for the open functions of
that vector. -/
theorem witness_LowPassB0IsHalfOfB1 :
    (∃ t, exec .designLp vanishing = .next t ∧ t.status = 0x0000000000000100 ∧ t.b1 = 0x0000000000000000) ∧
    inUnit 0x3FEFACFE8CDED93F = true ∧
    ∃ c, lowPassDesign (givenMath 0x3FC22CDEABEC443D 0x3FEFACFE8CDED93F 0x3FF0000000000000)
      0x408F400000000000 0x3FE69FBE76C8B439 0x40E5888000000000 = .commit c ∧
      0x0020000000000000 ≤ magOf c.b1 :=
  ⟨⟨_, rfl, by decide +kernel, by decide +kernel⟩, by decide, _, test_designLp_reverb, by decide⟩

theorem witness_LowPassSucceedsOnFiniteAlpha_VanishingAngleDesigns :
    fdiv (fmul 0x401921FB54442D18 vanishing.freq) vanishing.fs = 0x0000000000000000 ∧
    isFinite (fdiv (openMath.fsin 0x0000000000000000) (fmul 0x4000000000000000 vanishing.q)) = true ∧
    flt (fdiv (openMath.fsin 0x0000000000000000) (fmul 0x4000000000000000 vanishing.q)) 0 = false ∧
    isFinite (openMath.fpow10 (fdiv vanishing.gainDb 0x4044000000000000)) = true ∧
    isZero (openMath.fpow10 (fdiv vanishing.gainDb 0x4044000000000000)) = false := by decide +kernel

/-- R89's cases: f = fs / 2; one step below it; f = ±0, negative, infinite; fs = NaN; q the least
subnormal in place of an admitted one. -/
theorem witness_OperandCheckBoundaries :
    0x40D5888000000000 = fdiv 0x40E5888000000000 0x4000000000000000 ∧
    flt 0x40D5887FFFFFFFFF (fdiv 0x40E5888000000000 0x4000000000000000) = true ∧
    isZero 0x8000000000000000 = true ∧ signOf 0x8000000000000000 = true ∧
    isFinite 0x7FF0000000000000 = false ∧ isNaN 0x7FF0000000000001 = true ∧
    flt 0x0000000000000000 0x0000000000000001 = true ∧ isFinite 0x0000000000000001 = true := by
  decide +kernel

/-- Both commands admit the ordinary operands, with q = 4.31 and with the largest finite q. -/
theorem witness_OperandCheckBoundaries_admits : ∀ i, IsCommand i → Admits i (ordinary 0) ∧
    Admits i { ordinary 0 with q := 0x7FEFFFFFFFFFFFFF } := by
  intro i hi
  simp only [admits_iff hi]
  refine ⟨ordinary_admitted 0, ?_⟩
  unfold OperandsAdmitted
  decide +kernel

theorem witness_ResetClearsEveryRegister :
    (afterSuccess .reset).port = .reset :: [] ∧ (afterSuccess .reset).status ≠ 0 ∧
    (next? (step (afterSuccess .reset))).map (·.status) = some 0 := by decide

/-- A sound state with results, and a step of it that a command takes. -/
theorem witness_StepKeepsSound : (afterSuccess (.command 0x2)).Sound ∧
    ∃ t, step (afterSuccess (.command 0x2)) = .next t ∧ t.status ≠ 0x0000000000000100 := by
  refine ⟨?_, _, rfl, by decide⟩
  unfold State.Sound
  decide

/-- A step that changes STATUS and results, by each of the three events. -/
theorem witness_StatusAndResultsChangeOnlyByCommandOrReset :
    ∀ e ∈ [PortEvent.reset, .command 0x3, .access ⟨true, 0x20, 8, 0x3⟩],
      (next? (step (afterSuccess e))).map (·.results) = some Coeffs.cleared ∧
      (afterSuccess e).results ≠ Coeffs.cleared := by decide

/-- A write that changes its operand register, for each of the four. -/
theorem witness_OperandsChangeOnlyByTheirWriteOrReset :
    ∀ off ∈ [(0x00 : Offset), 0x08, 0x10, 0x18],
      ((next? (step (afterSuccess (.access ⟨true, off, 8, 0x5⟩)))).map fun t =>
        [t.gainDb, t.freq, t.q, t.fs].count 0x5) = some 1 := by decide

theorem witness_InstancesShareNothing :
    ∃ p', platformStep 1 [State.reset, afterSuccess .reset] = .next p' := ⟨_, rfl⟩

/-- The first and the last byte of a window lie in it, at offsets 0x00 and 0x7F. -/
theorem witness_WindowsAreDisjoint :
    routeTo 0 ⟨true, bqdBase 0, 8, 5⟩ = some ⟨true, 0x00, 8, 5⟩ ∧
    routeTo 0 ⟨false, bqdBase 0 + 127, 4, 0⟩ = some ⟨false, 0x7F, 4, 0⟩ ∧
    [State.reset, State.reset][0]? = some State.reset ∧ [State.reset, State.reset][1]? = some State.reset :=
  ⟨routeTo_eq_some_iff.2 (by simp), routeTo_eq_some_iff.2 (by simp), rfl, rfl⟩

theorem witness_BusAddressReachesItsRegister : [State.reset][0]? = some State.reset ∧ State.reset.port = [] ∧
    (0x78 : Offset).toNat % 8 = 0 ∧ (∃ t, exec (.rd 0x78) State.reset = .next t) ∧
    ∃ t, exec (.wr 0x20 0x1) State.reset = .next t := ⟨rfl, rfl, by decide, ⟨_, rfl⟩, _, rfl⟩

/-- The largest finite value, and a denominator other than zero. -/
theorem witness_ArithmeticRoundsToNearestEven : isFinite 0x7FEFFFFFFFFFFFFF = true ∧
    isFinite 0x0000000000000001 = true ∧ isZero 0x0000000000000001 = false := by decide

theorem witness_CorrectRoundingIsUnique : RoundsTo 0 (zeroWord false) ∧ RoundsTo 0 (zeroWord true) :=
  ⟨roundsTo_zero false, roundsTo_zero true⟩

/-- Words of every class, for the comparison and the special results. -/
theorem witness_ComparisonIsTheOrderOfValues_SpecialOperandResults :
    isFinite 0x8000000000000000 = true ∧ isZero 0x8000000000000000 = true ∧
    isNaN 0x7FF0000000000001 = true ∧ isInf 0xFFF0000000000000 = true ∧
    (isFinite 0x3FF0000000000000 = true ∧ isZero 0x3FF0000000000000 = false ∧
      signOf 0x3FF0000000000000 ≠ signOf 0xBFF0000000000000) := by decide

theorem witness_SpecialOperandResults_cancel :
    valueOf 0x3FF0000000000000 + valueOf 0xBFF0000000000000 = 0 := by
  rw [show (0xBFF0000000000000 : Word) = fneg 0x3FF0000000000000 from by decide, valueOf_fneg]
  exact add_neg_cancel _

theorem witness_SpecialOperandResults_difference : signOf 0x8000000000000000 = signOf 0x8000000000000000 ∧
    isFinite 0x7FEFFFFFFFFFFFFF = true ∧ fsub 0x7FEFFFFFFFFFFFFF 0x7FEFFFFFFFFFFFFF = 0x0 := by decide +kernel

/-- ERR-26 has an infinite w0; ERR-25 and ERR-27 an infinite alpha, for the sine of PK-1. -/
theorem witness_NonFiniteAngleOrAlphaFails :
    isFinite (fdiv (fmul 0x401921FB54442D18 (overflowing 0).freq) (overflowing 0).fs) = false ∧
    OperandsAdmitted 0x408F400000000000 0x0000000000000001 0x40E5888000000000 ∧
    alphaOf 0x3FC22CDEABEC443D 0x0000000000000001 = 0x7FF0000000000000 := by
  unfold OperandsAdmitted
  decide +kernel

/-- The ends of the two ranges: the largest value whose double is finite, and 2^-1021. -/
theorem witness_DoublingAndHalvingAreExact :
    isFinite (fmul 0x4000000000000000 0x7FDFFFFFFFFFFFFF) = true ∧
    0x0020000000000000 ≤ magOf 0x0020000000000000 ∧ isFinite 0x0020000000000000 = true := by decide +kernel

theorem witness_MinusTwiceIsTimesMinusTwo : isNaN 0x8000000000000000 = false ∧
    isNaN 0x7FF0000000000000 = false := by decide

/-- A choice of the open functions that R100 and R101 allow, however coarse. -/
def coarseMath : MathLib where
  fsin x := if isFinite x then (if isZero x then x else oneWord) else nanWord
  fcos x := if isFinite x then oneWord else nanWord
  fpow10 y :=
    if isNaN y then nanWord else if isZero y then oneWord else if y = oneWord then tenWord
    else if signOf y then zeroWord false else infWord false

theorem witness_EveryLawfulChoiceIsCovered : LawfulMath coarseMath where
  sin_unit x h := by
    simp only [coarseMath, h, if_true]
    split
    · rename_i h0
      rw [inUnit, isZero_iff.1 h0]
      decide
    · decide
  cos_unit x h := by simp only [coarseMath, h, if_true]; decide
  sin_zero neg := by cases neg <;> decide
  cos_zero neg := by cases neg <;> decide
  sin_nan x h := by simp [coarseMath, h, isNaN_nanWord]
  cos_nan x h := by simp [coarseMath, h, isNaN_nanWord]
  pow_zero neg := by cases neg <;> decide
  pow_nan y h := by simp only [coarseMath, h, if_true]; decide
  pow_pos_inf := by decide
  pow_neg_inf := by decide
  pow_not_nan y h := by
    simp only [coarseMath, isNaN_of_finite h, Bool.false_eq_true, if_false]
    split_ifs <;> decide
  pow_nonneg y h := by
    simp only [coarseMath, isNaN_of_finite h, Bool.false_eq_true, if_false]
    split_ifs <;> decide
  pow_overflow y _ h := by
    unfold powOverflows at h
    simp only [Bool.and_eq_true, Bool.not_eq_true', decide_eq_true_eq] at h
    have hz : isZero y = false := by
      rw [isZero, beq_eq_false_iff_ne]
      omega
    have h1 : y ≠ oneWord := by
      rintro rfl
      exact absurd h.2 (by decide)
    have hn : isNaN y = false := isNaN_of_finite ‹_›
    simp [coarseMath, hn, hz, h1, h.1]
  pow_below y _ h := by
    unfold powBelowNormal at h
    simp only [Bool.and_eq_true, decide_eq_true_eq] at h
    have hz : isZero y = false := by
      rw [isZero, beq_eq_false_iff_ne]
      omega
    have h1 : y ≠ oneWord := by
      rintro rfl
      exact absurd h.2 (by decide)
    have hn : isNaN y = false := isNaN_of_finite ‹_›
    simp [coarseMath, hn, hz, h1, h.1]
    decide
  pow_underflow y _ h := by
    unfold powUnderflows at h
    simp only [Bool.and_eq_true, decide_eq_true_eq] at h
    have hz : isZero y = false := by
      rw [isZero, beq_eq_false_iff_ne]
      omega
    have h1 : y ≠ oneWord := by
      rintro rfl
      exact absurd h.2 (by decide)
    have hn : isNaN y = false := isNaN_of_finite ‹_›
    simp [coarseMath, hn, hz, h1, h.1]
  pow_one := by decide

end Sys2Proof.Tests
end

section
/-! Proofs about the arithmetic of R12 and R99: every operation on finite operands rounds the exact
result (O47), correct rounding is unique (O48), and the comparison is the order of values (O49). -/

namespace Sys2Proof.Machine

/-! ### Values as real numbers -/

/-- The sign as a factor, in the form `roundsTo_pack` takes it. -/
theorem cast_signed (s : Bool) (m : Nat) :
    ((signed s m : Int) : ℝ) = (if s then -1 else 1) * (m : ℝ) := by
  cases s <;> simp [signed]

/-- The number a word stands for, in least subnormals. -/
theorem cast_valueOf (x : Word) :
    (valueOf x : ℝ) = ((signed (signOf x) (magValue (magOf x)) : Int) : ℝ) / 2 ^ 1074 := by
  unfold valueOf
  push_cast
  rfl

/-- The order of values is that of the signed integers they are multiples of 2^-1074 by. -/
theorem valueOf_lt_iff (a b : Word) : valueOf a < valueOf b ↔
    signed (signOf a) (magValue (magOf a)) < signed (signOf b) (magValue (magOf b)) := by
  unfold valueOf
  rw [div_lt_div_iff_of_pos_right (by positivity), Int.cast_lt]

/-- The sign of a product or quotient is the product of the signs. -/
theorem signFactor_xor (s t : Bool) : (if s ^^ t then -1 else 1 : ℝ) =
    (if s then -1 else 1) * (if t then -1 else 1) := by
  cases s <;> cases t <;> norm_num

/-- Dividing by a sign is multiplying by it. -/
theorem signFactor_inv (s : Bool) : (if s then -1 else 1 : ℝ)⁻¹ = if s then -1 else 1 := by
  cases s <;> norm_num

/-- An integer is its sign times its magnitude. -/
theorem signFactor_mul_natAbs (x : Int) :
    (if decide (x < 0) then -1 else 1 : ℝ) * (x.natAbs : ℝ) = (x : ℝ) := by
  rw [Nat.cast_natAbs]
  rcases lt_or_ge x 0 with h | h
  · simp [h, abs_of_neg h]
  · simp [h.not_gt, abs_of_nonneg h]

/-! ### The four operations round the exact result (R99) -/

theorem roundsTo_addFinite (s : Bool) (m : Nat) (t : Bool) (n : Nat) :
    RoundsTo (((signed s m + signed t n : Int) : ℝ) / 2 ^ 1074) (addFinite s m t n) := by
  unfold addFinite
  dsimp only
  generalize signed s m + signed t n = x
  split
  · next h =>
    rw [h, Int.cast_zero, zero_div]
    exact roundsTo_zero _
  · refine roundsTo_pack _ _ one_pos _ ?_
    rw [signFactor_mul_natAbs, Nat.cast_one, one_mul]

theorem roundsTo_fadd {a b : Word} (ha : isFinite a = true) (hb : isFinite b = true) :
    RoundsTo ((valueOf a : ℝ) + valueOf b) (fadd a b) := by
  rw [fadd_finite ha hb, cast_valueOf, cast_valueOf, ← add_div, ← Int.cast_add]
  exact roundsTo_addFinite _ _ _ _

theorem roundsTo_fsub {a b : Word} (ha : isFinite a = true) (hb : isFinite b = true) :
    RoundsTo ((valueOf a : ℝ) - valueOf b) (fsub a b) := by
  have h := roundsTo_fadd ha ((isFinite_fneg b).trans hb)
  rwa [valueOf_fneg, Rat.cast_neg, ← sub_eq_add_neg] at h

theorem roundsTo_fmul {a b : Word} (ha : isFinite a = true) (hb : isFinite b = true) :
    RoundsTo ((valueOf a : ℝ) * valueOf b) (fmul a b) := by
  rw [fmul_finite ha hb]
  refine roundsTo_pack _ _ (by positivity) _ ?_
  rw [cast_valueOf, cast_valueOf, cast_signed, cast_signed, signFactor_xor]
  rw [Nat.cast_mul, Nat.cast_pow, Nat.cast_ofNat, div_mul_div_comm, mul_mul_mul_comm]

theorem roundsTo_fdiv {a b : Word} (ha : isFinite a = true) (hb : isFinite b = true)
    (h0 : isZero b = false) : RoundsTo ((valueOf a : ℝ) / valueOf b) (fdiv a b) := by
  have hpos : 0 < magValue (magOf b) := by
    rw [Nat.pos_iff_ne_zero, Ne, magValue_eq_zero, ← isZero_iff, h0]
    decide
  have hP : (2 : ℝ) ^ 1074 ≠ 0 := by positivity
  rw [fdiv_finite ha hb h0]
  refine roundsTo_pack _ _ hpos _ ?_
  rw [cast_valueOf, cast_valueOf, cast_signed, cast_signed, signFactor_xor]
  rw [Nat.cast_mul, Nat.cast_pow, Nat.cast_ofNat, div_div_div_cancel_right₀ hP, ← mul_assoc,
    mul_div_mul_right _ _ hP, mul_div_mul_comm, div_eq_mul_inv (ite _ _ _), signFactor_inv, mul_div_assoc]

/-- Settles O47: each operation packs the rounding of the fraction that is the exact result. -/
theorem arithmeticRoundsToNearestEven : Obligations.ArithmeticRoundsToNearestEven :=
  fun _ _ ha hb => ⟨roundsTo_fadd ha hb, roundsTo_fsub ha hb, roundsTo_fmul ha hb, roundsTo_fdiv ha hb⟩

/-! ### Correct rounding is unique (D4) -/

/-- What lies strictly between two numbers equally far from r is nearer to r. -/
theorem abs_sub_lt_of_between {x y z r : ℝ} (hxz : x < z) (hzy : z < y) (h : |x - r| = |y - r|) :
    |z - r| < |x - r| := by
  rcases abs_eq_abs.1 h with he | he
  · linarith
  · rw [abs_of_neg (by linarith : x - r < 0), abs_lt]
    constructor <;> linarith

/-- In the finite range a rounding is finite and nearest. -/
theorem RoundsTo.finite_nearest {r : ℝ} {w : Word} (h : RoundsTo r w) (hr : |r| < 2 ^ 1024 - 2 ^ 970) :
    isFinite w = true ∧
    ∀ v, isFinite v = true → |(valueOf w : ℝ) - r| ≤ |(valueOf v : ℝ) - r| := by
  obtain ⟨-, -, hin, -⟩ := h
  obtain ⟨hf, hnear, -⟩ := hin hr
  exact ⟨hf, hnear⟩

/-- A rounding as near to r as another value is even. -/
theorem RoundsTo.even_of_tie {r : ℝ} {w v : Word} (h : RoundsTo r w) (hr : |r| < 2 ^ 1024 - 2 ^ 970)
    (hv : isFinite v = true) (hne : valueOf v ≠ valueOf w)
    (htie : |(valueOf v : ℝ) - r| = |(valueOf w : ℝ) - r|) : magOf w % 2 = 0 := by
  obtain ⟨-, -, hin, -⟩ := h
  obtain ⟨-, -, heven⟩ := hin hr
  have := heven v hv hne htie
  rw [getLsbD_zero_eq, decide_eq_false_iff_not] at this
  omega

/-- Two roundings of one number that differed would be even and equally near, and the value between
them nearer. -/
theorem RoundsTo.not_valueOf_lt {r : ℝ} {w w' : Word} (h : RoundsTo r w) (h' : RoundsTo r w')
    (hr : |r| < 2 ^ 1024 - 2 ^ 970) : ¬ valueOf w < valueOf w' := by
  intro hlt
  obtain ⟨hf, hnear⟩ := h.finite_nearest hr
  obtain ⟨hf', hnear'⟩ := h'.finite_nearest hr
  have htie : |(valueOf w : ℝ) - r| = |(valueOf w' : ℝ) - r| := le_antisymm (hnear w' hf') (hnear' w hf)
  obtain ⟨v, hv, hwv, hvw'⟩ := exists_value_between hf hf' hlt
    (h.even_of_tie hr hf' hlt.ne' htie.symm) (h'.even_of_tie hr hf hlt.ne htie)
  exact (hnear v hv).not_gt
    (abs_sub_lt_of_between (Rat.cast_lt.2 hwv) (Rat.cast_lt.2 hvw') htie)

/-- Beyond the finite range a rounding is an infinity. -/
theorem RoundsTo.magOf_eq_infMag {r : ℝ} {w : Word} (h : RoundsTo r w) (hr : 2 ^ 1024 - 2 ^ 970 ≤ |r|) :
    magOf w = infMag := by
  obtain ⟨-, -, -, hout⟩ := h
  exact isInf_iff.1 (hout hr)

/-- A number other than zero gives its sign to every rounding of it. -/
theorem RoundsTo.signOf_eq_of_ne_zero {r : ℝ} {w w' : Word} (h : RoundsTo r w) (h' : RoundsTo r w')
    (hr : r ≠ 0) : signOf w = signOf w' := by
  obtain ⟨hneg, hpos, -⟩ := h
  obtain ⟨hneg', hpos', -⟩ := h'
  rcases lt_or_gt_of_ne hr with hr | hr
  · rw [hneg hr, hneg' hr]
  · rw [hpos hr, hpos' hr]

/-- Settles O48: within the finite range by `RoundsTo.not_valueOf_lt` both ways, beyond it because
both are the infinity of r's sign. -/
theorem correctRoundingIsUnique : Obligations.CorrectRoundingIsUnique := by
  intro r w w' h h'
  rcases lt_or_ge |r| (2 ^ 1024 - 2 ^ 970) with hr | hr
  · exact .inr ⟨(h.finite_nearest hr).1, (h'.finite_nearest hr).1,
      le_antisymm (not_lt.1 (h'.not_valueOf_lt h hr)) (not_lt.1 (h.not_valueOf_lt h' hr))⟩
  · have hr0 : r ≠ 0 := by
      rintro rfl
      rw [abs_zero] at hr
      exact hr.not_gt (sub_pos.2 (pow_lt_pow_right₀ one_lt_two (by norm_num)))
    exact .inl (word_ext (h.signOf_eq_of_ne_zero h' hr0)
      ((h.magOf_eq_infMag hr).trans (h'.magOf_eq_infMag hr).symm))

/-! ### The comparison is the order of values (R12) -/

theorem flt_finite {a b : Word} (ha : isFinite a = true) (hb : isFinite b = true) :
    flt a b = true ↔ valueOf a < valueOf b := by
  unfold flt
  rw [f64_of_finite ha, f64_of_finite hb, valueOf_lt_iff]
  exact decide_eq_true_iff

theorem f64_infWord (s : Bool) : f64 (infWord s) = .inf s := by
  rw [f64_of_inf (isInf_infWord s), signOf_infWord]

/-- An infinity is below a finite word exactly when it is the negative one. -/
theorem flt_infWord_left {a : Word} (ha : isFinite a = true) (s : Bool) : flt (infWord s) a = s := by
  unfold flt
  rw [f64_infWord, f64_of_finite ha]

/-- A finite word is below an infinity exactly when that is the positive one. -/
theorem flt_infWord_right {a : Word} (ha : isFinite a = true) (s : Bool) : flt a (infWord s) = !s := by
  unfold flt
  rw [f64_infWord, f64_of_finite ha]

/-- Settles O49, class by class. -/
theorem comparisonIsTheOrderOfValues : Obligations.ComparisonIsTheOrderOfValues :=
  fun _ _ => ⟨flt_finite, flt_nan, fun ha => ⟨flt_infWord_right ha false, flt_infWord_left ha true,
    flt_infWord_left ha false, flt_infWord_right ha true⟩⟩

end Sys2Proof.Machine
end

section
/-! Proofs about the registers of 10_state.md: what a step does, told by the event it takes, and from
it the invariant of STATUS and the results (O39, O40), who may change a register (O41, O42), reset and
the empty port (O37, O7), reading an operand back (O13), and the fields of STATUS (O43). -/

namespace Sys2Proof.Machine

/-! ### The register map (R41) -/

theorem aligned_iff {off : Offset} : Offset.aligned off = true ↔ off.toNat % 8 = 0 := beq_iff_eq

/-- The offset at which a register or CMD stands (R41); the least reserved one for the reserved
offsets. -/
def Target.offset : Target → Offset
  | .gainDb => 0x00
  | .freq => 0x08
  | .q => 0x10
  | .fs => 0x18
  | .cmd => 0x20
  | .status => 0x28
  | .b0 => 0x30
  | .b1 => 0x38
  | .b2 => 0x40
  | .a1 => 0x48
  | .a2 => 0x50
  | .reserved => 0x58

/-- An aligned offset that is not reserved is the offset of what stands there. -/
theorem eq_offset_targetOf {off : Offset} (ha : Offset.aligned off = true)
    (hr : targetOf off ≠ .reserved) : off = (targetOf off).offset := by
  revert off
  decide

/-- No two aligned offsets name one register. -/
theorem targetOf_ne_of_ne {off off' : Offset} (ha : Offset.aligned off = true)
    (ha' : Offset.aligned off' = true) (hr : targetOf off ≠ .reserved) (hne : off' ≠ off) :
    targetOf off' ≠ targetOf off := by
  intro h
  apply hne
  rw [eq_offset_targetOf ha hr, eq_offset_targetOf ha' (h ▸ hr), h]

/-- The four operand registers (R21). -/
def Target.IsOperand (u : Target) : Prop := u = .gainDb ∨ u = .freq ∨ u = .q ∨ u = .fs

theorem Target.IsOperand.ne_cmd {u : Target} (hu : u.IsOperand) : u ≠ .cmd := by
  rcases hu with rfl | rfl | rfl | rfl <;> decide

theorem Target.IsOperand.ne_reserved {u : Target} (hu : u.IsOperand) : u ≠ .reserved := by
  rcases hu with rfl | rfl | rfl | rfl <;> decide

/-- The operand registers stand at the offsets below that of CMD. -/
theorem isOperand_targetOf {off : Offset} (h : off.toNat < 0x20) : (targetOf off).IsOperand := by
  unfold Target.IsOperand
  revert off
  decide

/-! ### What the shared operations leave -/

theorem State.readTarget_storeTarget_same (s : State) {u : Target} (hu : u.IsOperand) (v : Word) :
    (s.storeTarget u v).readTarget u = v := by
  rcases hu with rfl | rfl | rfl | rfl <;> rfl

@[simp] theorem State.storeTarget_results (s : State) (u : Target) (v : Word) :
    (s.storeTarget u v).results = s.results := by
  cases u <;> rfl

@[simp] theorem State.advance_results (s : State) : s.advance.results = s.results := rfl

@[simp] theorem State.readTarget_advance (s : State) (u : Target) :
    s.advance.readTarget u = s.readTarget u := by
  cases u <;> rfl

/-- A command keeps the operands (R97). -/
theorem State.readTarget_complete (s : State) (k : Completion) {u : Target} (hu : u.IsOperand) :
    (s.complete k).readTarget u = s.readTarget u := by
  rcases hu with rfl | rfl | rfl | rfl <;> cases k <;> rfl

/-- The fields of STATUS after a legal completion (R28). -/
theorem complete_statusFields (s : State) {k : Completion} (hk : k.Legal) :
    ((s.complete k).status = 0x0000000000000100 ∧ codeField (s.complete k).status = 0 ∧
        causeField (s.complete k).status = 0 ∧ validField (s.complete k).status = true) ∨
      (codeField (s.complete k).status ≠ 0 ∧ causeField (s.complete k).status ≠ 0 ∧
        validField (s.complete k).status = false) := by
  cases k with
  | commit c =>
    left
    simp only [State.complete, State.commit_status]
    decide
  | fail e =>
    right
    simp only [State.complete, State.fail_status]
    cases e with
    | none => exact absurd rfl hk
    | _ => decide

/-- A completion never leaves the reset value in STATUS. -/
theorem complete_status_ne_zero (s : State) {k : Completion} (hk : k.Legal) :
    (s.complete k).status ≠ 0 := by
  intro h0
  have h := complete_statusFields s hk
  rw [h0] at h
  exact absurd h (by decide)

/-! ### Reads and writes at aligned offsets (R44, R45) -/

theorem exec_rd_aligned {off : Offset} (ha : Offset.aligned off = true) (s : State) :
    exec (.rd off) s = .next { s with readData := some (s.readTarget (targetOf off)) } :=
  if_pos ha

theorem exec_wr_store {off : Offset} (ha : Offset.aligned off = true) (hc : targetOf off ≠ .cmd)
    (v : Word) (s : State) : exec (.wr off v) s = .next (s.storeTarget (targetOf off) v) :=
  (if_pos ha).trans (if_neg hc)

/-! ### A step, by the event it takes (R48) -/

theorem step_idle {s : State} (hp : s.port = []) : step s = .next s := by
  simp only [step, fetch, hp]

theorem step_reset {s : State} {rest : List PortEvent} (hp : s.port = .reset :: rest) :
    step s = .next s.advance.resetRegisters := by
  simp only [step, fetch, hp]

/-- A command word at the port is performed, legal or not. -/
theorem step_command {s : State} {v : Word} {rest : List PortEvent} (hp : s.port = .command v :: rest) :
    step s = execCmd v s.advance := by
  cases hd : decodeWord v with
  | ok c =>
    simp only [step, fetch, hp, decodeCommand, hd, execCmd]
    cases c <;> rfl
  | error why => simp only [step, fetch, hp, decodeCommand, hd]

theorem step_access_ok {s : State} {a : Access} {i : Instr} {rest : List PortEvent}
    (hp : s.port = .access a :: rest) (hd : decodeAccess a = .ok i) : step s = exec i s.advance := by
  simp only [step, fetch, hp, hd]

theorem step_access_error {s : State} {a : Access} {why : DecodeError} {rest : List PortEvent}
    (hp : s.port = .access a :: rest) (hd : decodeAccess a = .error why) :
    step s = .fault .busError := by
  simp only [step, fetch, hp, hd]

/-- The events that perform a command: a command word, and the admitted write to CMD. -/
def PerformsCommand (e : PortEvent) : Prop := ∃ v, e = .command v ∨ e = .access ⟨true, 0x20, 8, v⟩

/-- What each event does to the state it has been taken from, where the step has a next state. -/
inductive EventEffect (s : State) : PortEvent → State → Prop where
  /-- a reset -/
  | reset : EventEffect s .reset s.resetRegisters
  /-- an admitted read -/
  | read (off : Offset) (d : Word) : EventEffect s (.access ⟨false, off, 8, d⟩)
      { s with readData := some (s.readTarget (targetOf off)) }
  /-- an admitted write to any offset but that of CMD -/
  | store (off : Offset) (v : Word) (ha : Offset.aligned off = true) (hc : targetOf off ≠ .cmd) :
      EventEffect s (.access ⟨true, off, 8, v⟩) (s.storeTarget (targetOf off) v)
  /-- a command -/
  | command (e : PortEvent) (he : PerformsCommand e) (k : Completion) (hk : k.Legal) :
      EventEffect s e (s.complete k)

/-- A command event's effect, from what it runs. -/
theorem eventEffect_of_execCmd {s t : State} {e : PortEvent} {v : Word} (he : PerformsCommand e)
    (h : execCmd v s = .next t) : EventEffect s e t := by
  obtain ⟨k, hk, heq⟩ := execCmd_completes v s
  rw [heq] at h
  cases h
  exact .command e he k hk

/-- An admitted access's effect. -/
theorem eventEffect_of_access {s t : State} {a : Access} {i : Instr} (hd : decodeAccess a = .ok i)
    (h : exec i s = .next t) : EventEffect s (.access a) t := by
  obtain ⟨isWrite, off, size, v⟩ := a
  obtain ⟨hsize, ha, hi⟩ := decodeAccess_ok hd
  dsimp only at hsize ha hi
  subst hsize
  cases isWrite with
  | false =>
    rw [hi, if_neg Bool.false_ne_true, exec_rd_aligned ha] at h
    cases h
    exact .read off v
  | true =>
    rw [hi, if_pos rfl] at h
    by_cases hc : targetOf off = .cmd
    · have hoff : off = 0x20 := by
        rw [eq_offset_targetOf ha (hc ▸ by decide), hc]
        rfl
      subst hoff
      rw [execWr_cmd] at h
      exact eventEffect_of_execCmd ⟨v, .inr rfl⟩ h
    · rw [exec_wr_store ha hc] at h
      cases h
      exact .store off v ha hc

/-- Every step with a next state that takes an event has that event's effect. -/
theorem step_eventEffect {s t : State} {e : PortEvent} {rest : List PortEvent}
    (hp : s.port = e :: rest) (h : step s = .next t) : EventEffect s.advance e t := by
  cases e with
  | reset =>
    rw [step_reset hp] at h
    cases h
    exact .reset
  | command v =>
    rw [step_command hp] at h
    exact eventEffect_of_execCmd ⟨v, .inl rfl⟩ h
  | access a =>
    cases hd : decodeAccess a with
    | ok i => exact eventEffect_of_access hd (step_access_ok hp hd ▸ h)
    | error why =>
      rw [step_access_error hp hd] at h
      cases h

/-- Only a command or a reset writes STATUS and the results (R26, R27). -/
theorem EventEffect.keeps_status_results {s t : State} {e : PortEvent} (h : EventEffect s e t)
    (hr : e ≠ .reset) (hc : ¬ PerformsCommand e) : t.status = s.status ∧ t.results = s.results := by
  cases h with
  | reset => exact absurd rfl hr
  | read off d => exact ⟨rfl, rfl⟩
  | store off v _ _ => exact ⟨s.storeTarget_status _ v, s.storeTarget_results _ v⟩
  | command _ he k _ => exact absurd he hc

/-- An operand register changes only by the write of its new value, or by a reset (R21). -/
theorem EventEffect.eq_write_of_operand_ne {s t : State} {e : PortEvent} (h : EventEffect s e t)
    (hr : e ≠ .reset) {u : Target} (hu : u.IsOperand) (hne : t.readTarget u ≠ s.readTarget u) :
    e = .access ⟨true, u.offset, 8, t.readTarget u⟩ := by
  cases h with
  | reset => exact absurd rfl hr
  | read off d =>
    refine absurd ?_ hne
    cases u <;> rfl
  | store off v ha _ =>
    by_cases hu' : u = targetOf off
    · subst hu'
      rw [s.readTarget_storeTarget_same hu, ← eq_offset_targetOf ha hu.ne_reserved]
    · exact absurd (s.readTarget_storeTarget_of_ne v hu') hne
  | command _ _ k _ => exact absurd (s.readTarget_complete k hu) hne

/-! ### The invariant of STATUS and the results -/

/-- Soundness speaks of STATUS and the results alone. -/
theorem State.Sound.of_eq {s t : State} (hs : s.Sound) (hst : t.status = s.status)
    (hres : t.results = s.results) : t.Sound := by
  unfold State.Sound
  rw [hst, hres]
  exact hs

/-- Settles O39: 0 is a legal STATUS word, and +0.0 is finite. -/
theorem resetIsSound : Obligations.ResetIsSound := by
  unfold Obligations.ResetIsSound State.Sound
  decide

theorem Effect.sound {s t : State} (h : Effect s t) (hs : s.Sound) : t.Sound := by
  cases h with
  | read off => exact hs.of_eq rfl rfl
  | store u v _ => exact hs.of_eq (s.storeTarget_status u v) (s.storeTarget_results u v)
  | command k hk => exact sound_complete s hk

/-- Settles O40: an idle step answers the state, a reset leaves the registers of the reset state, and
every instruction's effect keeps the invariant. -/
theorem stepKeepsSound : Obligations.StepKeepsSound := by
  intro s t hs h
  rcases step_cases h with ⟨-, rfl⟩ | ⟨_, -, rfl⟩ | heff
  · exact hs
  · exact State.Sound.of_eq resetIsSound rfl rfl
  · exact heff.sound (hs.of_eq s.advance_status s.advance_results)

/-! ### Who changes a register -/

/-- Settles O41: a step that changes one of these took an event that does not keep them. -/
theorem statusAndResultsChangeOnlyByCommandOrReset :
    Obligations.StatusAndResultsChangeOnlyByCommandOrReset := by
  intro s t h hne
  cases hp : s.port with
  | nil =>
    rw [step_idle hp] at h
    cases h
    exact hne.elim (absurd rfl) (absurd rfl)
  | cons e rest =>
    refine ⟨rest, ?_⟩
    by_cases hr : e = .reset
    · exact .inl (by rw [hr])
    by_cases hc : PerformsCommand e
    · obtain ⟨v, rfl | rfl⟩ := hc
      · exact .inr (.inl ⟨v, rfl⟩)
      · exact .inr (.inr ⟨v, rfl⟩)
    · obtain ⟨hst, hres⟩ := (step_eventEffect hp h).keeps_status_results hr hc
      exact hne.elim (absurd hst) (absurd hres)

/-- Settles O42: `EventEffect.eq_write_of_operand_ne` for each of the four. -/
theorem operandsChangeOnlyByTheirWriteOrReset : Obligations.OperandsChangeOnlyByTheirWriteOrReset := by
  intro s t rest e hp hr h
  have key : ∀ u : Target, u.IsOperand → t.readTarget u ≠ s.readTarget u →
      e = .access ⟨true, u.offset, 8, t.readTarget u⟩ := fun u hu hne =>
    (step_eventEffect hp h).eq_write_of_operand_ne hr hu (by rwa [State.readTarget_advance])
  exact ⟨key .gainDb (.inl rfl), key .freq (.inr (.inl rfl)), key .q (.inr (.inr (.inl rfl))),
    key .fs (.inr (.inr (.inr rfl)))⟩

/-! ### Reset and the empty port -/

/-- Settles O7: nothing is fetched from an empty port. -/
theorem emptyPortChangesNothing : Obligations.EmptyPortChangesNothing := fun _ => step_idle

/-- A step that puts STATUS back to 0 takes a reset: every other event keeps STATUS or completes a
command, which never leaves 0. -/
theorem port_reset_of_status_zero {s t : State} (h : step s = .next t) (ht : t.status = 0)
    (hs : s.status ≠ 0) : ∃ rest, s.port = .reset :: rest := by
  cases hp : s.port with
  | nil =>
    rw [step_idle hp] at h
    cases h
    exact absurd ht hs
  | cons e rest =>
    cases step_eventEffect hp h with
    | reset => exact ⟨rest, rfl⟩
    | read off d => exact absurd ht hs
    | store off v _ _ => exact absurd ((State.storeTarget_status _ _ v).symm.trans ht) hs
    | command _ _ k hk => exact absurd ht (complete_status_ne_zero _ hk)

/-- Settles O37: the values are those of `State.reset`, and only a reset event gives STATUS = 0. -/
theorem resetClearsEveryRegister : Obligations.ResetClearsEveryRegister := by
  refine ⟨by simp, fun s rest hp => ?_, fun s t => port_reset_of_status_zero⟩
  rw [step_reset hp, State.resetRegisters, State.advance_port, State.advance_readData, hp]
  rfl

/-! ### An operand write and the fields of STATUS -/

/-- Settles O13: the write is a store into one operand register, and another aligned offset names
another register. -/
theorem operandWriteReadsBack : Obligations.OperandWriteReadsBack := by
  intro s off v hal hlt
  have ha := aligned_iff.2 hal
  have hu := isOperand_targetOf hlt
  refine ⟨_, _, exec_wr_store ha hu.ne_cmd v s, exec_rd_aligned ha _,
    congrArg some (s.readTarget_storeTarget_same hu v), fun off' hal' hne => ?_⟩
  have ha' := aligned_iff.2 hal'
  exact ⟨_, _, _, exec_rd_aligned ha' s, exec_rd_aligned ha' _, rfl, congrArg some
    (s.readTarget_storeTarget_of_ne v (targetOf_ne_of_ne ha ha' hu.ne_reserved hne))⟩

/-- Settles O43: a write to CMD completes legally, and the fields are those of the completion. -/
theorem statusFieldsAfterACommand : Obligations.StatusFieldsAfterACommand := by
  refine ⟨by decide, fun v s => ?_⟩
  obtain ⟨k, hk, heq⟩ := execCmd_completes v s
  exact ⟨_, (execWr_cmd v s).trans heq, complete_statusFields s hk⟩

end Sys2Proof.Machine
end

section
/-! Proofs about the window and the port of 20_memory.md: what a read returns and a write does at each
offset (O9, O10), the byte lanes (O14), which accesses are refused and that nothing else stops a step
(O11, O12), what a step runs (O5, O8, O15), and how a bus address finds its register (O45, O46). -/

namespace Sys2Proof.Machine

/-! ### The register map at each offset (R41) -/

@[simp] theorem Target.aligned_offset (u : Target) : Offset.aligned u.offset = true := by
  cases u <;> rfl

@[simp] theorem Target.targetOf_offset (u : Target) : targetOf u.offset = u := by
  cases u <;> rfl

theorem targetOf_reserved {off : Offset} (h : 0x58 ≤ off.toNat) : targetOf off = .reserved := by
  revert off
  decide

/-- Behind CMD stand read-only registers and reserved offsets. -/
theorem targetOf_readOnly {off : Offset} (h : 0x28 ≤ off.toNat) :
    targetOf off ≠ .cmd ∧ ¬ (targetOf off).IsOperand := by
  unfold Target.IsOperand
  revert off
  decide

/-- Only an operand register takes a write (R45). -/
theorem State.storeTarget_of_not_isOperand (s : State) {u : Target} (hu : ¬ u.IsOperand) (v : Word) :
    s.storeTarget u v = s := by
  cases u with
  | gainDb => exact absurd (.inl rfl) hu
  | freq => exact absurd (.inr (.inl rfl)) hu
  | q => exact absurd (.inr (.inr (.inl rfl))) hu
  | fs => exact absurd (.inr (.inr (.inr rfl))) hu
  | _ => rfl

/-- What the port last returned is no register. -/
theorem State.readTarget_setReadData (s : State) (d : Option Word) (u : Target) :
    { s with readData := d }.readTarget u = s.readTarget u := by
  cases u <;> rfl

/-! ### RD and WR at each offset (R42, R44, R45) -/

theorem exec_rd_offset (u : Target) (s : State) :
    exec (.rd u.offset) s = .next { s with readData := some (s.readTarget u) } := by
  rw [exec_rd_aligned u.aligned_offset, u.targetOf_offset]

theorem exec_wr_offset {u : Target} (hu : u ≠ .cmd) (v : Word) (s : State) :
    exec (.wr u.offset v) s = .next (s.storeTarget u v) := by
  rw [exec_wr_store u.aligned_offset (by rwa [u.targetOf_offset]), u.targetOf_offset]

theorem exec_rd_misaligned {off : Offset} (ha : ¬ Offset.aligned off = true) (s : State) :
    exec (.rd off) s = .fault .busError :=
  if_neg ha

theorem exec_wr_misaligned {off : Offset} (ha : ¬ Offset.aligned off = true) (v : Word) (s : State) :
    exec (.wr off v) s = .fault .busError :=
  if_neg ha

theorem exec_wr_command {off : Offset} (ha : Offset.aligned off = true) (hc : targetOf off = .cmd)
    (v : Word) (s : State) : exec (.wr off v) s = execCmd v s :=
  (if_pos ha).trans (if_pos hc)

/-- Reading the same offset again returns the same value (R44). -/
theorem exec_rd_idempotent {off : Offset} {s t : State} (h : exec (.rd off) s = .next t) :
    exec (.rd off) t = .next t := by
  by_cases ha : Offset.aligned off = true
  · rw [exec_rd_aligned ha] at h
    cases h
    have hread := s.readTarget_setReadData (some (s.readTarget (targetOf off))) (targetOf off)
    rw [exec_rd_aligned ha, hread]
  · rw [exec_rd_misaligned ha] at h
    cases h

/-- A legal command word runs the instruction it decodes to (R66, R80). -/
theorem execCmd_of_decodeCommand {v : Word} {i : Instr} (h : decodeCommand v = .ok i) (s : State) :
    execCmd v s = exec i s := by
  rcases decodeCommand_ok h with ⟨rfl, rfl⟩ | ⟨rfl, rfl⟩ <;> rfl

/-- Every instruction of the opcode table has a next state (R146). -/
theorem exec_next_of_wf {i : Instr} (hi : i.wf = true) (s : State) : ∃ t, exec i s = .next t := by
  cases i with
  | designPk =>
    obtain ⟨k, -, h⟩ := exec_command .peaking s
    exact ⟨_, h⟩
  | designLp =>
    obtain ⟨k, -, h⟩ := exec_command .lowPass s
    exact ⟨_, h⟩
  | rd off => exact ⟨_, exec_rd_aligned hi s⟩
  | wr off v =>
    by_cases hc : targetOf off = .cmd
    · obtain ⟨k, -, h⟩ := execCmd_completes v s
      exact ⟨_, (exec_wr_command hi hc v s).trans h⟩
    · exact ⟨_, exec_wr_store hi hc v s⟩

/-! ### Which accesses are admitted (R42) -/

theorem decodeAccess_admitted {off : Offset} (ha : Offset.aligned off = true) (isWrite : Bool) (v : Word) :
    decodeAccess ⟨isWrite, off, 8, v⟩ = .ok (if isWrite then .wr off v else .rd off) := by
  unfold decodeAccess
  cases isWrite <;> simp [ha]

theorem decodeAccess_wf {a : Access} {i : Instr} (h : decodeAccess a = .ok i) : i.wf = true := by
  obtain ⟨-, ha, rfl⟩ := decodeAccess_ok h
  cases a.isWrite <;> exact ha

/-- An access is refused exactly when it is not 8 bytes wide or not aligned. -/
theorem decodeAccess_error_iff (a : Access) :
    (∃ why, decodeAccess a = .error why) ↔ a.size ≠ 8 ∨ a.off.toNat % 8 ≠ 0 := by
  constructor
  · rintro ⟨why, h⟩
    by_contra hn
    obtain ⟨isWrite, off, size, v⟩ := a
    obtain ⟨rfl, ha⟩ : size = 8 ∧ off.toNat % 8 = 0 := by simpa using hn
    rw [decodeAccess_admitted (aligned_iff.2 ha)] at h
    cases h
  · intro hn
    cases h : decodeAccess a with
    | error why => exact ⟨why, rfl⟩
    | ok i =>
      obtain ⟨hsize, ha, -⟩ := decodeAccess_ok h
      exact absurd hn (by simp [hsize, aligned_iff.1 ha])

/-! ### What bytes that decode name (R60, R70) -/

/-- An instruction of a listing is what the listing's first access is. -/
theorem decode_bus8_ok {bytes rest : List Byte} {i : Instr} (h : decode .bus8 bytes = .ok (i, rest)) :
    ∃ a, readListing bytes = some (a, rest) ∧ decodeAccess a = .ok i := by
  cases hl : readListing bytes with
  | none => simp [decode, hl] at h
  | some p =>
    obtain ⟨a, tl⟩ := p
    cases hd : decodeAccess a with
    | error why => simp [decode, hl, hd, Except.map] at h
    | ok j =>
      simp only [decode, hl, hd, Except.map, Except.ok.injEq, Prod.mk.injEq] at h
      obtain ⟨rfl, rfl⟩ := h
      exact ⟨a, rfl, hd⟩

/-- An instruction of the command space is what the word of its first eight bytes is. -/
theorem decode_cmdw_ok {bytes rest : List Byte} {i : Instr} (h : decode .cmdw bytes = .ok (i, rest)) :
    decodeCommand (ofLittleEndian (bytes.take 8)) = .ok i := by
  unfold decode at h
  dsimp only at h
  split at h
  · cases h
  · cases hd : decodeCommand (ofLittleEndian (bytes.take 8)) with
    | error why => simp [hd, Except.map] at h
    | ok j =>
      simp only [hd, Except.map, Except.ok.injEq, Prod.mk.injEq] at h
      rw [h.1]

/-! ### A step, by the event at the head of the port (R48) -/

theorem State.advance_eq {s : State} {e : PortEvent} {rest : List PortEvent} (hp : s.port = e :: rest) :
    s.advance = { s with port := rest } := by
  rw [State.advance, hp, List.tail_cons]

theorem step_presentFirst_access {a : Access} {i : Instr} (hd : decodeAccess a = .ok i) (s : State) :
    step (s.presentFirst (.access a)) = exec i s :=
  step_access_ok (s := s.presentFirst _) rfl hd

theorem step_presentFirst_command (v : Word) (s : State) :
    step (s.presentFirst (.command v)) = execCmd v s :=
  step_command (s := s.presentFirst _) rfl

theorem step_access_refused {s : State} {a : Access} {rest : List PortEvent}
    (hp : s.port = .access a :: rest) (h : a.size ≠ 8 ∨ a.off.toNat % 8 ≠ 0) :
    step s = .fault .busError := by
  obtain ⟨why, hd⟩ := (decodeAccess_error_iff a).2 h
  exact step_access_error hp hd

/-! ### Runs -/

/-- A run goes on from where its first step leads. -/
theorem run_succ_of_step {s t : State} (h : step s = .next t) (k : Nat) :
    core.run (k + 1) s = core.run k t := by
  have hcore : core.step s = .next t := h
  simp only [Host.Core.run, hcore]

theorem run_one (s : State) : core.run 1 s = step s := by
  change core.run 1 s = core.step s
  cases h : core.step s <;> simp only [Host.Core.run, h]

/-- A write at the port to any offset but that of CMD is stored, and the run goes on. -/
theorem run_succ_of_store {s : State} {u : Target} {v : Word} {rest : List PortEvent} (hu : u ≠ .cmd)
    (hp : s.port = .access ⟨true, u.offset, 8, v⟩ :: rest) (k : Nat) :
    core.run (k + 1) s = core.run k ({ s with port := rest }.storeTarget u v) := by
  apply run_succ_of_step
  rw [step_access_ok hp (decodeAccess_admitted u.aligned_offset true v), s.advance_eq hp]
  exact exec_wr_offset hu v _

/-! ### The windows of the instances (R40) -/

/-- Exactly the accesses that start in window k reach the port behind it (log entry 14). -/
theorem routeTo_ne_none_iff {k : Nat} {b : BusAccess} :
    routeTo k b ≠ none ↔ bqdBase k ≤ b.addr ∧ b.addr < bqdBase k + 128 := by
  rw [routeTo, Ne, ite_eq_right_iff]
  simp

/-- A window ends before every later one begins. -/
theorem bqdBase_add_le {j k : Nat} (h : j < k) : bqdBase j + 128 ≤ bqdBase k := by
  have := windowIndex_lt h
  unfold bqdBase
  omega

theorem routeTo_eq_none_of_ne {b : BusAccess} {j k : Nat} (hne : j ≠ k) (hj : routeTo j b ≠ none) :
    routeTo k b = none := by
  by_contra hk
  obtain ⟨hj1, hj2⟩ := routeTo_ne_none_iff.1 hj
  obtain ⟨hk1, hk2⟩ := routeTo_ne_none_iff.1 hk
  rcases Nat.lt_or_gt_of_ne hne with h | h
  · have := bqdBase_add_le h
    omega
  · have := bqdBase_add_le h
    omega

/-- An offset in a window is the address minus the base (R44). -/
theorem routeTo_base_add (k : Nat) (isWrite : Bool) (off : Offset) (size : Nat) (v : Word) :
    routeTo k ⟨isWrite, bqdBase k + off.toNat, size, v⟩ = some ⟨isWrite, off, size, v⟩ := by
  have hoff := off.isLt
  refine routeTo_eq_some_iff.2 ⟨Nat.le_add_right .., by dsimp only; omega, ?_⟩
  simp

theorem getElem?_platformDeliver_seen {b : BusAccess} {p : List State} {k : Nat} {s : State} {a : Access}
    (hs : p[k]? = some s) (hr : routeTo k b = some a) :
    (platformDeliver b p)[k]? = some (s.present [a]) := by
  rw [getElem?_platformDeliver, hs, hr]
  rfl

theorem getElem?_platformDeliver_unseen {b : BusAccess} {p : List State} {k : Nat}
    (hr : routeTo k b = none) : (platformDeliver b p)[k]? = p[k]? := by
  rw [getElem?_platformDeliver, hr]
  exact Option.map_id' ..

/-- Delivering an access changes only what stands behind the window it starts in. -/
theorem platformDeliver_eq_set {b : BusAccess} {p : List State} {k : Nat} {s : State} {a : Access}
    (hs : p[k]? = some s) (hr : routeTo k b = some a) : platformDeliver b p = p.set k (s.present [a]) := by
  apply List.ext_getElem?
  intro j
  by_cases hj : k = j
  · subst hj
    obtain ⟨hk, -⟩ := List.getElem?_eq_some_iff.1 hs
    rw [getElem?_platformDeliver_seen hs hr, List.getElem?_set_self hk]
  · rw [List.getElem?_set_ne hj]
    exact getElem?_platformDeliver_unseen (routeTo_eq_none_of_ne hj (by simp [hr]))

/-- A step of the state just put at k. -/
theorem platformStep_set {p : List State} {k : Nat} {s t : State} (hk : k < p.length)
    (h : step s = .next t) : platformStep k (p.set k s) = .next (p.set k t) := by
  unfold platformStep
  rw [List.getElem?_set_self hk]
  simp only [h, List.set_set]

/-- Presenting an access at an empty port puts it at the head. -/
theorem State.present_of_port_nil {s : State} (hp : s.port = []) (a : Access) :
    s.present [a] = s.presentFirst (.access a) := by
  rw [State.present, State.presentFirst, hp]
  rfl

/-- Delivering an admitted access to window k, whose port is empty, and stepping there runs the access's
instruction. -/
theorem platformStep_platformDeliver {p : List State} {k : Nat} {s t : State} {off : Offset}
    (hs : p[k]? = some s) (hp : s.port = []) (ha : Offset.aligned off = true) (isWrite : Bool) (v : Word)
    (h : exec (if isWrite then .wr off v else .rd off) s = .next t) :
    platformStep k (platformDeliver ⟨isWrite, bqdBase k + off.toNat, 8, v⟩ p) = .next (p.set k t) := by
  obtain ⟨hk, -⟩ := List.getElem?_eq_some_iff.1 hs
  rw [platformDeliver_eq_set hs (routeTo_base_add ..), State.present_of_port_nil hp]
  exact platformStep_set hk ((step_presentFirst_access (decodeAccess_admitted ha isWrite v) s).trans h)

/-! ### Byte lanes (R43) -/

/-- The byte lanes of a register stand at its offset and the seven after it. -/
theorem toNat_add_lane {off : Offset} (ha : off.toNat % 8 = 0) {k : Nat} (hk : k < 8) :
    (off + BitVec.ofNat 7 k).toNat = off.toNat + k := by
  have := off.isLt
  rw [BitVec.toNat_add, BitVec.toNat_ofNat]
  omega

theorem State.windowByte_add_lane (s : State) {off : Offset} (ha : off.toNat % 8 = 0) {k : Nat}
    (hk : k < 8) : s.windowByte (off + BitVec.ofNat 7 k) =
      (s.readTarget (targetOf off)).extractLsb' (8 * k) 8 := by
  have hlane := toNat_add_lane ha hk
  have htarget : targetOf (off + BitVec.ofNat 7 k) = targetOf off := by
    unfold targetOf
    rw [hlane, show (off.toNat + k) / 8 = off.toNat / 8 by omega]
  rw [State.windowByte, htarget, hlane, show (off.toNat + k) % 8 = k by omega]

/-! ### The obligations -/

/-- Settles O10: an operand's offset stores, the word of CMD decides which command runs or why it fails,
and behind CMD no register takes a write. -/
theorem writeFollowsTheRegisterMap : Obligations.WriteFollowsTheRegisterMap := by
  intro s v
  refine ⟨exec_wr_offset (u := .gainDb) (by decide) v s, exec_wr_offset (u := .freq) (by decide) v s,
    exec_wr_offset (u := .q) (by decide) v s, exec_wr_offset (u := .fs) (by decide) v s,
    (execWr_cmd 0 s).trans (execCmd_of_decodeCommand rfl s),
    (execWr_cmd 1 s).trans (execCmd_of_decodeCommand rfl s), fun h => ?_, fun h => ?_,
    fun off ha h => ?_⟩
  · rw [execCmd_illegal (by omega), if_pos h]
  · rw [execCmd_illegal (by omega), if_neg (by omega)]
  · obtain ⟨hc, hu⟩ := targetOf_readOnly h
    rw [exec_wr_store (aligned_iff.2 ha) hc, s.storeTarget_of_not_isOperand hu]

/-- Settles O12, by the event at the head of the port: what is no refused access is an instruction of
the opcode table, a command word or a reset, and each of them completes. -/
theorem onlyARefusedAccessStops : Obligations.OnlyARefusedAccessStops := by
  intro s
  cases hp : s.port with
  | nil => exact .inl ⟨_, step_idle hp⟩
  | cons e rest =>
    cases e with
    | reset => exact .inl ⟨_, step_reset hp⟩
    | command v =>
      obtain ⟨k, -, h⟩ := execCmd_completes v s.advance
      exact .inl ⟨_, (step_command hp).trans h⟩
    | access a =>
      cases hd : decodeAccess a with
      | ok i =>
        obtain ⟨t, h⟩ := exec_next_of_wf (decodeAccess_wf hd) s.advance
        exact .inl ⟨t, (step_access_ok hp hd).trans h⟩
      | error why =>
        exact .inr ⟨step_access_error hp hd, a, rest, rfl, (decodeAccess_error_iff a).1 ⟨why, hd⟩⟩

/-- Settles O14: the lanes of an aligned offset belong to the register that RD returns. -/
theorem byteLanesAreLittleEndian : Obligations.ByteLanesAreLittleEndian := fun s _ ha =>
  ⟨_, exec_rd_aligned (aligned_iff.2 ha) s, fun _ => s.windowByte_add_lane ha⟩

/-- Settles O15: four stores, and a last step that performs the command word. -/
theorem commandUsesTheValuesWrittenBeforeIt : Obligations.CommandUsesTheValuesWrittenBeforeIt := by
  intro s g f q fs v hp
  rw [run_succ_of_store (u := .gainDb) (by decide) hp, run_succ_of_store (u := .freq) (by decide) rfl,
    run_succ_of_store (u := .q) (by decide) rfl, run_succ_of_store (u := .fs) (by decide) rfl, run_one]
  exact step_command rfl

/-- Settles O45: the bases are multiples of 128, and each lies at least 128 above the one before. -/
theorem windowsAreDisjoint : Obligations.WindowsAreDisjoint :=
  ⟨fun _ => Nat.mul_mod_right .., fun _ _ _ => routeTo_eq_none_of_ne, routeTo_base_add,
    fun _ _ _ _ _ => getElem?_platformDeliver_seen, fun _ _ _ _ _ hk hne hs =>
      (getElem?_platformDeliver_unseen (routeTo_eq_none_of_ne hne.symm hk)).trans hs⟩

/-- Settles O46: `platformStep_platformDeliver` for a read and for a write. -/
theorem busAddressReachesItsRegister : Obligations.BusAddressReachesItsRegister :=
  fun _ _ _ _ v hs hp hal =>
    ⟨fun _ => platformStep_platformDeliver hs hp (aligned_iff.2 hal) false v,
      fun _ => platformStep_platformDeliver hs hp (aligned_iff.2 hal) true v⟩

/-- Settles O5: the event at the head decides what the step runs, and bytes that decode name such an
event. -/
theorem stepRunsTheDecodedInstruction : Obligations.StepRunsTheDecodedInstruction := by
  refine ⟨fun s a rest i hp hd => ?_, fun s v rest i hp hd => ?_, fun s bytes rest i h => ?_,
    fun s bytes rest i h => ?_⟩
  · rw [step_access_ok hp hd, s.advance_eq hp]
  · rw [step_command hp, execCmd_of_decodeCommand hd, s.advance_eq hp]
  · obtain ⟨a, hl, hd⟩ := decode_bus8_ok h
    exact ⟨a, hl, step_presentFirst_access hd s⟩
  · rw [step_presentFirst_command, execCmd_of_decodeCommand (decode_cmdw_ok h)]

/-- Settles O8: either event performs `ExecCmd`. -/
theorem commandWordIsTheCmdWrite : Obligations.CommandWordIsTheCmdWrite := by
  intro s v
  rw [step_presentFirst_command, step_presentFirst_access (decodeAccess_admitted rfl true v)]
  exact ⟨(execWr_cmd v s).symm, (execWr_cmd v s).symm⟩

/-- Settles O9: each register at its offset, zero from 0x58 up, and `exec_rd_idempotent`. -/
theorem readReturnsTheRegister : Obligations.ReadReturnsTheRegister := by
  intro s
  refine ⟨exec_rd_offset .gainDb s, exec_rd_offset .freq s, exec_rd_offset .q s, exec_rd_offset .fs s,
    exec_rd_offset .cmd s, exec_rd_offset .status s, exec_rd_offset .b0 s, exec_rd_offset .b1 s,
    exec_rd_offset .b2 s, exec_rd_offset .a1 s, exec_rd_offset .a2 s, fun off ha h => ?_,
    fun _ _ => exec_rd_idempotent⟩
  rw [exec_rd_aligned (aligned_iff.2 ha), targetOf_reserved h]
  rfl

/-- Settles O11: a refused access at the port, and a misaligned RD or WR term. -/
theorem refusedAccessFaults : Obligations.RefusedAccessFaults :=
  ⟨fun _ _ _ => step_access_refused, fun s _ h => exec_rd_misaligned (mt aligned_iff.1 h) s,
    fun s _ v h => exec_wr_misaligned (mt aligned_iff.1 h) v s⟩

end Sys2Proof.Machine
end

section
/-! Proofs about the encodings of 30_encoding.md: decoding undoes encoding (O1) and only encodings decode
(O2), what each command word and the words written out decode to (O3, O4), and that the bits of an
opcode-table row run as what they decode to (O6). -/

namespace Sys2Proof.Machine

/-! ### The decoder on the bytes of a command word and of an access -/

theorem decode_cmdw_append (v : Word) (rest : List Byte) :
    decode .cmdw (littleEndian v ++ rest) = (decodeCommand v).map (·, rest) := by
  have htake : (littleEndian v ++ rest).take 8 = littleEndian v := List.take_left' (length_littleEndian v)
  have hdrop : (littleEndian v ++ rest).drop 8 = rest := List.drop_left' (length_littleEndian v)
  simp [decode, htake, hdrop]

theorem decode_bus8_of_readListing {bytes rest : List Byte} {a : Access} {i : Instr}
    (hl : readListing bytes = some (a, rest)) (hd : decodeAccess a = .ok i) :
    decode .bus8 bytes = .ok (i, rest) := by
  simp only [decode, hl, hd, Except.map]

/-- Bytes that decode in the command space are those of a command word and what is left. -/
theorem decode_cmdw_bytes {bytes rest : List Byte} {i : Instr} (h : decode .cmdw bytes = .ok (i, rest)) :
    ∃ v, decodeCommand v = .ok i ∧ bytes = littleEndian v ++ rest := by
  have hd := decode_cmdw_ok h
  by_cases hlen : bytes.length < 8
  · simp [decode, hlen] at h
  · have hsplit : bytes = littleEndian (ofLittleEndian (bytes.take 8)) ++ bytes.drop 8 := by
      rw [littleEndian_ofLittleEndian (List.length_take_of_le (not_lt.1 hlen)), List.take_append_drop]
    rw [hsplit, decode_cmdw_append, hd] at h
    cases h
    exact ⟨_, hd, hsplit⟩

/-! ### The encoder on what the decoder names -/

/-- A legal command word and its instruction have the same bytes. -/
theorem encode_of_decodeCommand {v : Word} {i : Instr} (h : decodeCommand v = .ok i) :
    i.wf = true ∧ i.format = .cmdw ∧ encode i = littleEndian v := by
  rcases decodeCommand_ok h with ⟨rfl, rfl⟩ | ⟨rfl, rfl⟩ <;> exact ⟨rfl, rfl, rfl⟩

/-- The bytes of an admitted access are its descriptor and, for a write, its data word. -/
theorem encode_of_decodeAccess {a : Access} {i : Instr} (h : decodeAccess a = .ok i) :
    i.format = .bus8 ∧ encode i = descriptor a.isWrite a.off ::
      if a.isWrite then (littleEndian a.data).reverse else [] := by
  obtain ⟨-, -, rfl⟩ := decodeAccess_ok h
  cases a.isWrite <;> exact ⟨rfl, rfl⟩

/-! ### The bits of an opcode-table row -/

/-- The 64 bits of a command word's row are the bytes of that word. -/
theorem tableBytes_command (w : Nat) : tableBytes 64 w = (.cmdw, littleEndian (BitVec.ofNat 64 w)) := by
  rw [littleEndian, BitVec.toNat_ofNat]
  rfl

theorem tableBytes_access {nbits : Nat} (h : nbits ≠ 64) (w : Nat) : (tableBytes nbits w).1 = .bus8 := by
  simp [tableBytes, h]

theorem decodeTableWord_some {nbits w : Nat} {i : Instr} (h : decodeTableWord nbits w = some i) :
    ∃ rest, decode (tableBytes nbits w).1 (tableBytes nbits w).2 = .ok (i, rest) := by
  unfold decodeTableWord at h
  split at h
  · next j rest hd =>
    cases h
    exact ⟨rest, hd⟩
  · cases h

theorem tableEvent_command (w : Nat) : tableEvent 64 w = .command (BitVec.ofNat 64 w) := by
  simp only [tableEvent, tableBytes_command, ofLittleEndian_littleEndian]

theorem tableEvent_access {nbits w : Nat} {a : Access} {rest : List Byte} (h : nbits ≠ 64)
    (hl : readListing (tableBytes nbits w).2 = some (a, rest)) : tableEvent nbits w = .access a := by
  simp only [tableEvent, tableBytes_access h, hl]

/-! ### The obligations -/

/-- Settles O1: the bytes of a command give back its word, those of RD and WR their access, which is
admitted because its offset is aligned. -/
theorem decodeOfEncodeIsIdentity : Obligations.DecodeOfEncodeIsIdentity := by
  intro i rest hwf
  cases i with
  | designPk => exact decode_cmdw_append 0 rest
  | designLp => exact decode_cmdw_append 1 rest
  | rd off => exact decode_bus8_of_readListing (readListing_read off rest) (decodeAccess_admitted hwf false 0)
  | wr off data =>
    exact decode_bus8_of_readListing (readListing_write off data rest) (decodeAccess_admitted hwf true data)

/-- Settles O2: the bytes are those of a command word or of an access, and these are what the encoder
gives for its instruction. -/
theorem decodedBytesAreTheEncoding : Obligations.DecodedBytesAreTheEncoding := by
  intro fmt bytes i rest h
  cases fmt with
  | cmdw =>
    obtain ⟨v, hd, hbytes⟩ := decode_cmdw_bytes h
    obtain ⟨hwf, hfmt, henc⟩ := encode_of_decodeCommand hd
    exact ⟨hwf, hfmt, henc ▸ hbytes⟩
  | bus8 =>
    obtain ⟨a, hl, hd⟩ := decode_bus8_ok h
    obtain ⟨-, hbytes⟩ := readListing_some hl
    obtain ⟨hfmt, henc⟩ := encode_of_decodeAccess hd
    exact ⟨decodeAccess_wf hd, hfmt, henc ▸ hbytes⟩

/-- Settles O3: a word from 4 up has a reserved bit, and the four words below it are evaluated; what the
write to CMD then does is `execCmd_of_decodeCommand` for the two commands, `execCmd_illegal` for the rest. -/
theorem commandWordsDecodeAsTheirKind : Obligations.CommandWordsDecodeAsTheirKind := by
  intro v s
  refine ⟨fun h => ⟨decodeWord_reserved h, ?_⟩, ?_, ?_, ?_⟩
  · rw [execCmd_illegal (by omega), if_pos h]
  · rintro rfl
    exact ⟨decodeWord_zero, (execWr_cmd 0 s).trans (execCmd_of_decodeCommand rfl s)⟩
  · rintro rfl
    exact ⟨decodeWord_one, (execWr_cmd 1 s).trans (execCmd_of_decodeCommand rfl s)⟩
  · rintro (rfl | rfl) <;> exact ⟨by decide, execCmd_illegal (by decide)⟩

/-- Settles O4: the first five byte strings are encodings, so O1 reads them back; the last two are
refused by evaluation. -/
theorem writtenOutWordsDecode : Obligations.WrittenOutWordsDecode :=
  ⟨decodeOfEncodeIsIdentity .designPk [] rfl, decodeOfEncodeIsIdentity .designLp [] rfl,
    decodeOfEncodeIsIdentity (.wr 0x20 0x0000000000000001) [] rfl,
    decodeOfEncodeIsIdentity (.rd 0x28) [0x30] rfl,
    decodeOfEncodeIsIdentity (.wr 0x18 0x40E5888000000000) [] rfl, by decide, by decide⟩

/-- Settles O6: 64 bits present the command word they are, fewer the access their bytes begin with, and
the step runs what that decodes to. -/
theorem stepRunsThePresentedTableWord : Obligations.StepRunsThePresentedTableWord := by
  intro s nbits w i h
  obtain ⟨rest, hdec⟩ := decodeTableWord_some h
  unfold State.withFetchWord
  by_cases h64 : nbits = 64
  · subst h64
    rw [tableBytes_command] at hdec
    have hd := decode_cmdw_ok hdec
    rw [List.take_of_length_le (length_littleEndian _).le, ofLittleEndian_littleEndian] at hd
    rw [tableEvent_command, step_presentFirst_command, execCmd_of_decodeCommand hd]
  · rw [tableBytes_access h64] at hdec
    obtain ⟨a, hl, hd⟩ := decode_bus8_ok hdec
    rw [tableEvent_access h64 hl, step_presentFirst_access hd]

end Sys2Proof.Machine
end

section
/-! Proofs about the default results of R99: NaN, infinite and zero operands (O50), and exact doubling
and halving (O51). -/

namespace Sys2Proof.Machine

/-! ### Infinities and zeros (R99) -/

theorem isFinite_of_isZero {x : Word} (h : isZero x = true) : isFinite x = true :=
  isFinite_iff.2 (isZero_iff.1 h ▸ by decide)

theorem f64_of_zero {x : Word} (h : isZero x = true) : f64 x = .fin (signOf x) 0 := by
  rw [f64_of_finite (isFinite_of_isZero h), isZero_iff.1 h, magValue_zero]

theorem fdiv_zero_zero {a b : Word} (ha : isZero a = true) (hb : isZero b = true) :
    fdiv a b = nanWord := by
  unfold fdiv
  rw [f64_of_zero ha, f64_of_zero hb]
  rfl

/-- Infinities of opposite sign have no sum. -/
theorem fadd_inf_inf {a b : Word} (ha : isInf a = true) (hb : isInf b = true)
    (hs : signOf a ≠ signOf b) : fadd a b = nanWord := by
  unfold fadd
  rw [f64_of_inf ha, f64_of_inf hb]
  exact if_neg hs

theorem fmul_zero_inf {a b : Word} (ha : isZero a = true) (hb : isInf b = true) :
    fmul a b = nanWord := by
  unfold fmul
  rw [f64_of_zero ha, f64_of_inf hb]
  rfl

theorem fmul_inf_zero {a b : Word} (ha : isInf a = true) (hb : isZero b = true) :
    fmul a b = nanWord := by
  unfold fmul
  rw [f64_of_inf ha, f64_of_zero hb]
  rfl

/-- An infinity is not finite. -/
theorem not_finite_of_isInf {x : Word} (h : isInf x = true) : isFinite x = false := by
  rw [isFinite, isInf_iff.1 h]
  exact decide_eq_false (lt_irrefl _)

/-! ### Sums that cancel -/

theorem signOf_ne_signOf_fneg {a b : Word} (hs : signOf a = signOf b) : signOf a ≠ signOf (fneg b) := by
  rw [signOf_fneg, hs]
  exact (Bool.not_ne_self _).symm

/-- Values that sum to 0 are multiples of 2^-1074 that do. -/
theorem signed_add_eq_zero {a b : Word} (h : valueOf a + valueOf b = 0) :
    signed (signOf a) (magValue (magOf a)) + signed (signOf b) (magValue (magOf b)) = 0 := by
  unfold valueOf at h
  rw [← add_div, div_eq_zero_iff, or_iff_left (by positivity)] at h
  exact_mod_cast h

theorem fadd_cancel {a b : Word} (ha : isFinite a = true) (hb : isFinite b = true)
    (hs : signOf a ≠ signOf b) (hv : valueOf a + valueOf b = 0) : fadd a b = 0x0000000000000000 := by
  have hand : (signOf a && signOf b) = false := by
    rw [Bool.eq_not.2 hs, Bool.not_and_self]
  rw [fadd_finite ha hb]
  exact (if_pos (signed_add_eq_zero hv)).trans (congrArg zeroWord hand)

theorem fsub_cancel {a b : Word} (ha : isFinite a = true) (hb : isFinite b = true)
    (hs : signOf a = signOf b) (hv : valueOf a = valueOf b) : fsub a b = 0x0000000000000000 := by
  refine fadd_cancel ha ((isFinite_fneg b).trans hb) (signOf_ne_signOf_fneg hs) ?_
  rw [valueOf_fneg, hv, add_neg_cancel]

/-- Settles O50: the rule of each class of operands. -/
theorem specialOperandResults : Obligations.SpecialOperandResults := by
  intro a b
  refine ⟨fun h => ?_, fun ha h0 hb => ?_, fun ha hb => ?_, fun ha hb => ⟨?_, fun hs => ?_, fun hs => ?_⟩,
    fun ha hb => ?_, fadd_cancel, fsub_cancel, signOf_fneg a, magOf_fneg a⟩
  · rw [fadd_nan h, fsub_nan h, fmul_nan h, fdiv_nan h]
    exact ⟨isNaN_nanWord, isNaN_nanWord, isNaN_nanWord, isNaN_nanWord⟩
  · rw [zeroWord_of_isZero hb, fdiv_by_zero _ ha h0, signOf_infWord, signOf_zeroWord]
    exact ⟨isInf_infWord _, rfl⟩
  · rw [fdiv_zero_zero ha hb, isNaN_nanWord]
  · exact fdiv_both_not_finite (not_finite_of_isInf ha) (not_finite_of_isInf hb)
  · rw [fsub, fadd_inf_inf ha ((isInf_fneg b).trans hb) (signOf_ne_signOf_fneg hs), isNaN_nanWord]
  · rw [fadd_inf_inf ha hb hs, isNaN_nanWord]
  · rw [fmul_zero_inf ha hb, fmul_inf_zero hb ha]
    exact ⟨isNaN_nanWord, isNaN_nanWord⟩

/-! ### Doubling and halving -/

/-- Doubling a finite word rounds twice its magnitude. -/
theorem fmul_two {a : Word} (ha : isFinite a = true) :
    fmul 0x4000000000000000 a = pack (signOf a) (roundMag (2 * magValue (magOf a)) 1) := by
  have hP : 0 < 2 ^ 1074 := by positivity
  have hs : signOf (0x4000000000000000 : Word) = false := by decide
  have h := roundMag_mul hP (2 * magValue (magOf a)) 1
  rw [fmul_finite (by decide) ha, magValue_two, hs, Bool.false_xor, ← h, mul_one, mul_comm 2 (2 ^ 1074),
    mul_assoc]

/-- Twice a magnitude's value is a magnitude's value: one binade up, or the doubled significand of a
subnormal. -/
theorem exists_magValue_double (mag : Nat) : ∃ mag', magValue mag' = 2 * magValue mag := by
  obtain ⟨k, r, rfl, hk, hr⟩ := mag_binade mag
  rcases Nat.lt_or_ge r (2 ^ 52) with h | h
  · obtain rfl : k = 0 := by omega
    refine ⟨0 * 2 ^ 52 + 2 * r, ?_⟩
    rw [magValue_binade (.inl rfl) (by omega), magValue_binade (.inl rfl) hr.le, pow_zero, one_mul, one_mul]
  · refine ⟨(k + 1) * 2 ^ 52 + r, ?_⟩
    rw [magValue_binade (.inr h) hr.le, magValue_binade (.inr h) hr.le, pow_succ', mul_assoc]

/-- A number that some magnitude stands for is rounded to itself, unless it overflows. -/
theorem magValue_roundMag_of_eq {mag n : Nat} (h : magValue mag = n) (hfin : roundMag n 1 < infMag) :
    magValue (roundMag n 1) = n := by
  subst h
  have hmag : mag < infMag := by
    by_contra hge
    have hinf : magValue infMag * 1 ≤ magValue mag := by
      rw [mul_one]
      exact magValue_strictMono.monotone (not_lt.1 hge)
    exact hfin.not_ge (le_roundMag one_pos le_rfl hinf)
  have h := roundMag_exact (d := 1) one_pos hmag
  rw [mul_one] at h
  rw [h]

/-- A word of the same sign and twice the magnitude stands for twice the number. -/
theorem valueOf_eq_two_mul {x y : Word} (hs : signOf y = signOf x)
    (hm : magValue (magOf y) = 2 * magValue (magOf x)) : valueOf y = 2 * valueOf x := by
  unfold valueOf
  rw [hs, hm, ← mul_div_assoc]
  cases signOf x <;> simp [signed]

/-- Settles O51: twice a magnitude and, from 2^-1021 up, half of it are magnitudes again. -/
theorem doublingAndHalvingAreExact : Obligations.DoublingAndHalvingAreExact := by
  intro a ha
  refine ⟨fun hfin => ?_, fun h => ?_⟩
  · obtain ⟨mag, hmag⟩ := exists_magValue_double (magOf a)
    rw [fmul_two ha] at hfin ⊢
    refine valueOf_eq_two_mul (signOf_pack_roundMag ..) ?_
    rw [magOf_pack_roundMag]
    exact magValue_roundMag_of_eq hmag ((isFinite_pack ..).1 hfin)
  · obtain ⟨hs, -, hm⟩ := half_exact ha (.inl h)
    exact (valueOf_eq_two_mul hs.symm hm.symm).symm

end Sys2Proof.Machine
end

section
/-! Proofs about the open functions of R100 and R101: the model's construction has the required
properties, whatever the raw functions (O53), and gives every lawful choice back (O54). -/

namespace Sys2Proof.Machine

/-! ### The sine and the cosine at the zeros -/

theorem sinOf_zero (raw : Word → Word) {x : Word} (h : isZero x = true) : sinOf raw x = x := by
  simp [sinOf, isFinite_of_isZero h, h]

theorem cosOf_zero (raw : Word → Word) {x : Word} (h : isZero x = true) : cosOf raw x = oneWord := by
  simp [cosOf, isFinite_of_isZero h, h]

theorem isZero_zeroWord (s : Bool) : isZero (zeroWord s) = true := by cases s <;> decide

theorem isInf_of_finite {x : Word} (h : isFinite x = true) : isInf x = false :=
  beq_false_of_ne (isFinite_iff.1 h).ne

/-! ### The thresholds of 10^y (log entries 4 and 5) -/

theorem powBelowNormal_iff {y : Word} :
    powBelowNormal y = true ↔ signOf y = true ∧ 0x40733A7146F72A42 ≤ magOf y := by
  rw [powBelowNormal, Bool.and_eq_true, decide_eq_true_iff]

theorem powUnderflows_iff {y : Word} :
    powUnderflows y = true ↔ signOf y = true ∧ 0x4074400000000000 ≤ magOf y := by
  rw [powUnderflows, Bool.and_eq_true, decide_eq_true_iff]

theorem powOverflows_iff {y : Word} :
    powOverflows y = true ↔ signOf y = false ∧ 0x40734413509F79FF ≤ magOf y := by
  rw [powOverflows, Bool.and_eq_true, Bool.not_eq_true', decide_eq_true_iff]

/-- The underflow threshold lies below that of the normal range. -/
theorem powBelowNormal_of_powUnderflows {y : Word} (h : powUnderflows y = true) :
    powBelowNormal y = true := by
  obtain ⟨hs, hm⟩ := powUnderflows_iff.1 h
  exact powBelowNormal_iff.2 ⟨hs, by omega⟩

/-- A negative argument does not overflow. -/
theorem not_powOverflows_of_neg {y : Word} (h : signOf y = true) : powOverflows y = false := by
  rw [powOverflows, h]
  rfl

/-- Magnitudes from 2^8 on are neither those of the zeros nor that of 1. -/
theorem ne_zero_one_of_large {y : Word} (h : 0x4070000000000000 ≤ magOf y) :
    isZero y = false ∧ y ≠ oneWord := by
  constructor
  · rw [isZero, beq_eq_false_iff_ne]
    omega
  · rintro rfl
    exact absurd h (by decide)

/-! ### 10^y, by the class of y (R101) -/

section
variable (raw : Word → Word) {y : Word}

theorem pow10Of_nan (h : isNaN y = true) : pow10Of raw y = nanWord := if_pos h

theorem pow10Of_zero (h : isZero y = true) : pow10Of raw y = oneWord := by
  have hf := isFinite_of_isZero h
  simp [pow10Of, isNaN_of_finite hf, isInf_of_finite hf, h]

theorem pow10Of_overflow (hf : isFinite y = true) (h : powOverflows y = true) :
    pow10Of raw y = infWord false := by
  obtain ⟨-, hm⟩ := powOverflows_iff.1 h
  obtain ⟨h0, h1⟩ := ne_zero_one_of_large (y := y) (by omega)
  simp [pow10Of, isNaN_of_finite hf, isInf_of_finite hf, h0, h1, h]

/-- Below the normal range the value is +0 where it underflows, and otherwise the raw one if that is
+0 or a subnormal. -/
theorem pow10Of_below (hf : isFinite y = true) (h : powBelowNormal y = true) :
    pow10Of raw y = if powUnderflows y = false ∧ zeroOrSubnormal (raw y) = true then raw y
      else zeroWord false := by
  obtain ⟨hs, hm⟩ := powBelowNormal_iff.1 h
  obtain ⟨h0, h1⟩ := ne_zero_one_of_large (y := y) (by omega)
  have ho := not_powOverflows_of_neg hs
  cases hu : powUnderflows y <;>
    simp [pow10Of, isNaN_of_finite hf, isInf_of_finite hf, h0, h1, ho, hu, h]

theorem pow10Of_underflow (hf : isFinite y = true) (h : powUnderflows y = true) :
    pow10Of raw y = zeroWord false := by
  rw [pow10Of_below raw hf (powBelowNormal_of_powUnderflows h), h]
  simp

theorem zeroOrSubnormal_pow10Of (hf : isFinite y = true) (h : powBelowNormal y = true) :
    zeroOrSubnormal (pow10Of raw y) = true := by
  rw [pow10Of_below raw hf h]
  split
  · next hraw => exact hraw.2
  · decide

/-- At a finite argument the value is the raw one only where that is neither a NaN nor negative; every
other value is a constant that is neither. -/
theorem pow10Of_not_nan_nonneg (hf : isFinite y = true) :
    isNaN (pow10Of raw y) = false ∧ signOf (pow10Of raw y) = false := by
  by_cases hb : powBelowNormal y = true
  · have h := zeroOrSubnormal_pow10Of raw hf hb
    rw [zeroOrSubnormal, Bool.and_eq_true, Bool.not_eq_true', decide_eq_true_iff] at h
    refine ⟨isNaN_of_finite (isFinite_iff.2 (lt_trans h.2 (by decide))), h.1⟩
  · have hu : powUnderflows y = false := Bool.eq_false_iff.2 (mt powBelowNormal_of_powUnderflows hb)
    simp only [pow10Of, isNaN_of_finite hf, isInf_of_finite hf, hu, hb, Bool.false_eq_true, if_false]
    split_ifs with _ _ _ hraw
    · decide
    · decide
    · decide
    · decide
    · simpa using hraw

end

/-- Settles O53, property by property. -/
theorem openFunctionsHaveTheRequiredProperties : Obligations.OpenFunctionsHaveTheRequiredProperties where
  sin_unit _ := inUnit_sinOf _
  cos_unit _ := inUnit_cosOf _
  sin_zero neg := sinOf_zero _ (isZero_zeroWord neg)
  cos_zero neg := cosOf_zero _ (isZero_zeroWord neg)
  sin_nan _ h := (congrArg isNaN (sinOf_not_finite _ h)).trans isNaN_nanWord
  cos_nan _ h := (congrArg isNaN (cosOf_not_finite _ h)).trans isNaN_nanWord
  pow_zero neg := pow10Of_zero _ (isZero_zeroWord neg)
  pow_nan _ h := (congrArg isNaN (pow10Of_nan _ h)).trans isNaN_nanWord
  pow_pos_inf := rfl
  pow_neg_inf := rfl
  pow_not_nan _ h := (pow10Of_not_nan_nonneg _ h).1
  pow_nonneg _ h := (pow10Of_not_nan_nonneg _ h).2
  pow_overflow _ := pow10Of_overflow _
  pow_below _ := zeroOrSubnormal_pow10Of _
  pow_underflow _ := pow10Of_underflow _
  pow_one := rfl

/-! ### A lawful choice is given back -/

theorem sinOf_lawful {M : MathLib} (hM : LawfulMath M) (x : Word) :
    sinOf M.fsin x = M.fsin x ∨ (isNaN (sinOf M.fsin x) = true ∧ isNaN (M.fsin x) = true) := by
  cases hf : isFinite x with
  | false =>
    rw [sinOf_not_finite _ hf]
    exact .inr ⟨isNaN_nanWord, hM.sin_nan x hf⟩
  | true =>
    left
    cases h0 : isZero x with
    | true => rw [sinOf_zero _ h0, zeroWord_of_isZero h0, hM.sin_zero]
    | false => simp [sinOf, hf, h0, hM.sin_unit x hf]

theorem cosOf_lawful {M : MathLib} (hM : LawfulMath M) (x : Word) :
    cosOf M.fcos x = M.fcos x ∨ (isNaN (cosOf M.fcos x) = true ∧ isNaN (M.fcos x) = true) := by
  cases hf : isFinite x with
  | false =>
    rw [cosOf_not_finite _ hf]
    exact .inr ⟨isNaN_nanWord, hM.cos_nan x hf⟩
  | true =>
    left
    cases h0 : isZero x with
    | true => rw [cosOf_zero _ h0, zeroWord_of_isZero h0, hM.cos_zero]
    | false => simp [cosOf, hf, h0, hM.cos_unit x hf]

theorem pow10Of_lawful_finite {M : MathLib} (hM : LawfulMath M) {y : Word} (hf : isFinite y = true) :
    pow10Of M.fpow10 y = M.fpow10 y := by
  have hn := hM.pow_not_nan y hf
  have hs := hM.pow_nonneg y hf
  simp only [pow10Of, isNaN_of_finite hf, isInf_of_finite hf, hn, hs, Bool.false_eq_true, if_false,
    Bool.or_self]
  split_ifs with h0 h1 ho hu hb hraw
  · rw [zeroWord_of_isZero h0, hM.pow_zero]
  · rw [h1, hM.pow_one]
  · exact (hM.pow_overflow y hf ho).symm
  · exact (hM.pow_underflow y hf hu).symm
  · rfl
  · exact absurd (hM.pow_below y hf hb) hraw
  · rfl

theorem pow10Of_lawful {M : MathLib} (hM : LawfulMath M) (y : Word) :
    pow10Of M.fpow10 y = M.fpow10 y ∨
      (isNaN (pow10Of M.fpow10 y) = true ∧ isNaN (M.fpow10 y) = true) := by
  rcases class_cases y with h | h | h
  · rw [pow10Of_nan _ h]
    exact .inr ⟨isNaN_nanWord, hM.pow_nan y h⟩
  · left
    rw [infWord_of_isInf h]
    cases signOf y with
    | false => exact hM.pow_pos_inf.symm
    | true => exact hM.pow_neg_inf.symm
  · exact .inl (pow10Of_lawful_finite hM h)

/-- Settles O54: where a lawful choice is no NaN, the construction's conditions hold of it and its value
is kept. -/
theorem everyLawfulChoiceIsCovered : Obligations.EveryLawfulChoiceIsCovered :=
  fun _ hM x => ⟨sinOf_lawful hM x, cosOf_lawful hM x, pow10Of_lawful hM x⟩

end Sys2Proof.Machine
end

section
/-! Proofs about the commands of 40_design_common.md: which check fails with which word (O18 to O22, O36),
what the result check commits or fails (O16, O23, O35), what a failure writes (O25), what a command keeps
(O26) and what it depends on (O27, O28). -/

namespace Sys2Proof.Machine

/-! ### The comparison, and which words are positive (R12, R84) -/

theorem flt_asymm {a b : Word} (h : flt a b = true) : flt b a = false := by
  unfold flt at h ⊢
  generalize f64 a = x at h ⊢
  generalize f64 b = y at h ⊢
  cases x with
  | nan => cases h
  | inf s =>
    cases y with
    | nan => cases h
    | inf t => cases s <;> cases t <;> trivial
    | fin t n => exact congrArg not h
  | fin s m =>
    cases y with
    | nan => cases h
    | inf t => exact (Bool.not_eq_true' t).to_iff.1 h
    | fin t n => exact decide_eq_false (of_decide_eq_true h).not_gt

theorem flt_irrefl (a : Word) : flt a a = false := by
  cases h : flt a a with
  | false => rfl
  | true => exact h.symm.trans (flt_asymm h)

/-- What is greater than 0 is no zero, not negative and no NaN. -/
theorem zero_lt_true {x : Word} (h : flt 0x0000000000000000 x = true) :
    isZero x = false ∧ signOf x = false ∧ isNaN x = false := by
  have hnot := mt (zero_lt_false x).2 (by rw [h]; decide)
  simpa only [not_or, Bool.not_eq_true] using hnot

/-! ### The operand checks, in the order of R143 -/

theorem zeroWord_false : zeroWord false = 0x0000000000000000 := rfl

section
variable {f q fs : Word}

theorem validate_fsNotPositive (h : flt 0x0000000000000000 fs = false) :
    validate f q fs = some .fsNotPositive := by
  simp only [validate, zeroWord_false, h]
  rfl

variable (hpos : flt 0x0000000000000000 fs = true)
include hpos

theorem validate_fsNotFinite (h : isFinite fs = false) : validate f q fs = some .fsNotFinite := by
  simp only [validate, zeroWord_false, hpos, h]
  rfl

variable (hfin : isFinite fs = true)
include hfin

theorem validate_freqOutOfRange
    (h : ¬(flt 0x0000000000000000 f = true ∧ flt f (fdiv fs 0x4000000000000000) = true)) :
    validate f q fs = some .freqOutOfRange := by
  rw [← Bool.and_eq_true_iff, Bool.not_eq_true] at h
  simp only [validate, zeroWord_false, twoWord, hpos, hfin, h]
  rfl

variable (hf : flt 0x0000000000000000 f = true) (hny : flt f (fdiv fs 0x4000000000000000) = true)
include hf hny

theorem validate_qNotPositive (h : flt 0x0000000000000000 q = false) :
    validate f q fs = some .qNotPositive := by
  simp only [validate, zeroWord_false, twoWord, hpos, hfin, hf, hny, h]
  rfl

theorem validate_qNotFinite (h : flt 0x0000000000000000 q = true) (hq : isFinite q = false) :
    validate f q fs = some .qNotFinite := by
  simp only [validate, zeroWord_false, twoWord, hpos, hfin, hf, hny, h, hq]
  rfl

end

/-! ### What a completion writes -/

theorem State.fail_eq_failedWith (s : State) (e : Cause) :
    s.fail e = s.failedWith (statusWord false e (causeCode e)) := rfl

/-- A failing operand check leaves the STATUS word of its cause. -/
theorem command_failedWith {i : Instr} (hi : IsCommand i) {s : State} {e : Cause} {w : Word}
    (h : validate s.freq s.q s.fs = some e) (hw : statusWord false e (causeCode e) = w) :
    exec i s = .next (s.failedWith w) := by
  subst hw
  exact command_fails hi h

/-- Settles O18: `zero_lt_false`, and the first check. -/
theorem sampleRateNotPositiveFails : Obligations.SampleRateNotPositiveFails := fun _ s hi =>
  ⟨zero_lt_false s.fs, fun h => command_failedWith hi (validate_fsNotPositive h) rfl⟩

/-- Settles O19: +infinity is positive and not finite. -/
theorem infiniteSampleRateFails : Obligations.InfiniteSampleRateFails := by
  intro i s hi hfs
  refine command_failedWith hi (validate_fsNotFinite ?_ ?_) rfl <;> rw [hfs] <;> decide

/-- Settles O20: the third check. -/
theorem frequencyOutOfRangeFails : Obligations.FrequencyOutOfRangeFails :=
  fun _ _ hi hpos hfin h => command_failedWith hi (validate_freqOutOfRange hpos hfin h) rfl

/-- Settles O21: `zero_lt_false`, and the fourth check. -/
theorem qNotPositiveFails : Obligations.QNotPositiveFails := fun _ s hi =>
  ⟨zero_lt_false s.q, fun hpos hfin hf hny h =>
    command_failedWith hi (validate_qNotPositive hpos hfin hf hny h) rfl⟩

/-- Settles O22: +infinity is positive and not finite. -/
theorem infiniteQFails : Obligations.InfiniteQFails := by
  intro i s hi hpos hfin hf hny hq
  refine command_failedWith hi (validate_qNotFinite hpos hfin hf hny ?_ ?_) rfl <;> rw [hq] <;> decide

/-! ### The result check (R94, R95) -/

/-- On admitted operands DESIGN.PK ends as the result check of its coefficients says. -/
theorem execDesignPk_admitted {s : State} (h : OperandsAdmitted s.freq s.q s.fs) :
    exec .designPk s = .next (s.complete (checked s.peakingCoeffs)) := by
  rw [execDesignPk_eq, validate_of_admitted h]

/-- On admitted operands DESIGN.LP ends as the result check of its coefficients says. -/
theorem execDesignLp_admitted {s : State} (h : OperandsAdmitted s.freq s.q s.fs) :
    exec .designLp s = .next (s.complete (checked s.lowPassCoeffs)) := by
  rw [execDesignLp_eq, validate_of_admitted h]

theorem complete_checked_finite (s : State) {c : Coeffs} (h : c.allFinite = true) :
    s.complete (checked c) = s.succeeded c := by
  rw [checked, if_pos h]
  rfl

theorem complete_checked_not_finite (s : State) {c : Coeffs} (h : c.allFinite = false) :
    s.complete (checked c) = s.failedWith 0x0000000000000081 := by
  rw [checked, h]
  rfl

/-- Settles O16: the checks pass and the coefficients are finite, so DESIGN.PK commits them. -/
theorem peakingDesignCompletes : Obligations.PeakingDesignCompletes := by
  intro s hadm hfin
  rw [execDesignPk_admitted hadm, complete_checked_finite s hfin]

/-- Settles O23: the operand checks pass and the result check fails, in either design. -/
theorem nonFiniteResultFails : Obligations.NonFiniteResultFails := by
  intro s hadm
  rw [execDesignPk_admitted hadm, execDesignLp_admitted hadm]
  exact ⟨fun h => congrArg _ (complete_checked_not_finite s h),
    fun h => congrArg _ (complete_checked_not_finite s h)⟩

/-! ### Where w0 underflows to +0.0 (R103) -/

/-- Doubling does not go below the word doubled. -/
theorem magOf_le_magOf_double {a : Word} (ha : isFinite a = true) :
    magOf a ≤ magOf (fmul 0x4000000000000000 a) := by
  rw [fmul_two ha, magOf_pack_roundMag]
  exact le_roundMag one_pos (isFinite_iff.1 ha).le (by omega)

theorem isNaN_double {a : Word} (ha : isFinite a = true) : isNaN (fmul 0x4000000000000000 a) = false := by
  rw [fmul_two ha, isNaN, magOf_pack_roundMag]
  exact decide_eq_false (roundMag_le ..).not_gt

theorem roundMag_zero {d : Nat} (hd : 0 < d) : roundMag 0 d = 0 := by
  have h := roundMag_exact hd (by decide : 0 < infMag)
  rwa [magValue_zero, zero_mul] at h

/-- A zero over anything but a NaN or a zero is a zero. -/
theorem isZero_fdiv {a b : Word} (ha : isZero a = true) (hn : isNaN b = false) (h0 : isZero b = false) :
    isZero (fdiv a b) = true := by
  rcases class_cases b with hb | hb | hb
  · rw [hn] at hb
    cases hb
  · unfold fdiv
    rw [f64_of_zero ha, f64_of_inf hb]
    exact isZero_zeroWord _
  · have hpos : 0 < magValue (magOf b) := by
      rw [Nat.pos_iff_ne_zero, Ne, magValue_eq_zero, ← isZero_iff, h0]
      decide
    rw [fdiv_finite (isFinite_of_isZero ha) hb h0, isZero_iff.1 ha, magValue_zero, zero_mul,
      roundMag_zero hpos]
    exact isZero_zeroWord _

/-- A zero times a finite value is a zero. -/
theorem isZero_fmul {a b : Word} (ha : isZero a = true) (hb : isFinite b = true) :
    isZero (fmul a b) = true := by
  rw [fmul_finite (isFinite_of_isZero ha) hb, isZero_iff.1 ha, magValue_zero, zero_mul,
    roundMag_zero (by positivity)]
  exact isZero_zeroWord _

/-- With a sine of 0, alpha is a zero. -/
theorem isZero_alphaOf {s q : Word} (hs : isZero s = true) (hq : flt 0x0000000000000000 q = true)
    (hfin : isFinite q = true) : isZero (alphaOf s q) = true := by
  obtain ⟨h0, -, -⟩ := zero_lt_true hq
  refine isZero_fdiv hs (isNaN_double hfin) (Bool.eq_false_iff.2 fun hd => ?_)
  have hle := magOf_le_magOf_double hfin
  rw [twoWord] at hd
  rw [isZero_iff.1 hd, Nat.le_zero, ← isZero_iff, h0] at hle
  cases hle

/-- 1 plus or minus a zero is 1. -/
theorem one_add_sub_zero {z : Word} (h : isZero z = true) :
    fadd oneWord z = oneWord ∧ fsub oneWord z = oneWord := by
  rw [zeroWord_of_isZero h]
  cases signOf z <;> decide +kernel

/-- The peaking coefficients for a cosine of 1 and an alpha of 0. -/
theorem normalise_rawPk_vanishing {A alpha : Word} (halpha : isZero alpha = true)
    (hA : isFinite A = true) (h0 : isZero A = false) :
    normalise (rawPk A oneWord alpha) = ⟨0x3FF0000000000000, 0xC000000000000000,
      0x3FF0000000000000, 0xC000000000000000, 0x3FF0000000000000⟩ := by
  obtain ⟨hadd, hsub⟩ := one_add_sub_zero (isZero_fmul halpha hA)
  obtain ⟨hadd', hsub'⟩ := one_add_sub_zero (isZero_fdiv halpha (isNaN_of_finite hA) h0)
  simp only [normalise, rawPk, hadd, hsub, hadd', hsub']
  decide +kernel

/-- The low-pass coefficients for a cosine of 1 and an alpha of 0. -/
theorem normalise_rawLp_vanishing {alpha : Word} (halpha : isZero alpha = true) :
    normalise (rawLp oneWord alpha) = ⟨0x0000000000000000, 0x0000000000000000,
      0x0000000000000000, 0xC000000000000000, 0x3FF0000000000000⟩ := by
  obtain ⟨hadd, hsub⟩ := one_add_sub_zero halpha
  simp only [normalise, rawLp, hadd, hsub]
  decide +kernel

/-- Settles O35: the sine of +0 is +0 and its cosine is 1, so alpha is a zero and both a0 are 1. -/
theorem vanishingAngleDesigns : Obligations.VanishingAngleDesigns := by
  intro s hadm hw0
  have hmath := openFunctionsHaveTheRequiredProperties
  have hangle : angle s.freq s.fs = zeroWord false := hw0
  have hcos : openMath.fcos (angle s.freq s.fs) = oneWord := by rw [hangle, hmath.cos_zero]
  have halpha : isZero (alphaOf (openMath.fsin (angle s.freq s.fs)) s.q) = true := by
    obtain ⟨-, -, -, -, hq, hfin⟩ := hadm
    rw [hangle, hmath.sin_zero]
    exact isZero_alphaOf (isZero_zeroWord false) hq hfin
  refine ⟨fun hA h0 => ?_, ?_⟩
  · have hcoeffs := normalise_rawPk s
    rw [hcos, normalise_rawPk_vanishing (A := amplitude openMath s.gainDb) halpha hA h0] at hcoeffs
    rw [hcoeffs]
    exact peakingDesignCompletes s hadm (hcoeffs ▸ by decide)
  · have hcoeffs := normalise_rawLp s
    rw [hcos, normalise_rawLp_vanishing halpha] at hcoeffs
    rw [execDesignLp_admitted hadm, complete_checked_finite s (hcoeffs ▸ by decide), ← hcoeffs]

/-! ### What a command writes, keeps and depends on (R96 to R98) -/

/-- The completion of a command word, as a function of the word and the four operands alone. -/
def commandCompletion (v g f q fs : Word) : Completion :=
  match decodeWord v with
  | .ok .peaking => peakingDesign openMath g f q fs
  | .ok .lowPass => lowPassDesign openMath f q fs
  | .error why => .fail (illegalCause why)

/-- A write to CMD completes with the completion of its word and the operands. -/
theorem execWr_cmd_eq (v : Word) (s : State) :
    exec (.wr 0x20 v) s = .next (s.complete (commandCompletion v s.gainDb s.freq s.q s.fs)) := by
  rw [execWr_cmd, execCmd, commandCompletion]
  cases decodeWord v with
  | error why => rfl
  | ok c => cases c <;> rfl

/-- A command, by whichever instruction, is a legal completion. -/
theorem exec_completes {i : Instr} {v : Word} (h : IsCommand i ∨ i = .wr 0x20 v) (s : State) :
    ∃ k : Completion, k.Legal ∧ exec i s = .next (s.complete k) := by
  rcases h with (rfl | rfl) | rfl
  · exact exec_command .peaking s
  · exact exec_command .lowPass s
  · exact execCmd_completes v s

theorem complete_frame (s : State) (k : Completion) :
    (s.complete k).gainDb = s.gainDb ∧ (s.complete k).freq = s.freq ∧ (s.complete k).q = s.q ∧
    (s.complete k).fs = s.fs ∧ (s.complete k).port = s.port ∧ (s.complete k).readData = s.readData := by
  cases k <;> simp [State.complete]

/-- STATUS and the results after a completion are the completion's. -/
theorem complete_status_results (s s' : State) (k : Completion) :
    (s.complete k).status = (s'.complete k).status ∧ (s.complete k).results = (s'.complete k).results := by
  cases k <;> exact ⟨rfl, rfl⟩

theorem complete_complete (s : State) (k : Completion) : (s.complete k).complete k = s.complete k := by
  cases k <;> rfl

/-- The STATUS word of a cause, by its fields and as a number (R65). -/
theorem statusWord_fail (e : Cause) :
    validField (statusWord false e (causeCode e)) = false ∧
    causeField (statusWord false e (causeCode e)) = causeBits e ∧
    codeField (statusWord false e (causeCode e)) = codeBits (causeCode e) ∧
    statusWord false e (causeCode e) =
      BitVec.ofNat 64 (16 * (causeBits e).toNat + (codeBits (causeCode e)).toNat) := by
  cases e <;> decide

/-- Settles O25: a command that does not leave 0x100 has not committed, so it failed with a cause. -/
theorem failureWritesStatusAndClearsResultsOnly : Obligations.FailureWritesStatusAndClearsResultsOnly := by
  intro v s t h hne
  obtain ⟨k, hk, heq⟩ := execCmd_completes v s
  rw [execWr_cmd, heq] at h
  cases h
  cases k with
  | commit c => exact absurd rfl hne
  | fail e =>
    obtain ⟨hvalid, hcause, hcode, hword⟩ := statusWord_fail e
    exact ⟨e, hk, hvalid, hcause, hcode, hword ▸ s.fail_eq_failedWith e⟩

/-- Settles O26: every command is a completion, and a completion keeps the operands. -/
theorem commandsKeepTheOperands : Obligations.CommandsKeepTheOperands := by
  intro i v s t hi h
  obtain ⟨k, -, heq⟩ := exec_completes hi s
  rw [heq] at h
  cases h
  exact complete_frame s k

/-- Settles O27: both writes complete with the same completion. -/
theorem commandsDependOnTheOperandsAlone : Obligations.CommandsDependOnTheOperandsAlone := by
  intro v s s' hg hf hq hfs
  refine ⟨_, _, execWr_cmd_eq v s, execWr_cmd_eq v s', ?_⟩
  rw [hg, hf, hq, hfs]
  exact complete_status_results s s' _

/-- Settles O28: the second write finds the same operands, so it completes the same way. -/
theorem repeatedCommandChangesNothing : Obligations.RepeatedCommandChangesNothing := by
  intro v s t h
  rw [execWr_cmd_eq] at h
  cases h
  obtain ⟨hg, hf, hq, hfs, -, -⟩ := complete_frame s (commandCompletion v s.gainDb s.freq s.q s.fs)
  rw [execWr_cmd_eq, hg, hf, hq, hfs, complete_complete]

/-! ### The boundary cases of the operand checks (R89) -/

/-- Below a finite value, a positive one is finite. -/
theorem isFinite_of_between {a b : Word} (hb : isFinite b = true) (h0 : flt 0x0000000000000000 a = true)
    (h : flt a b = true) : isFinite a = true := by
  obtain ⟨-, hs, hn⟩ := zero_lt_true h0
  rcases class_cases a with hn' | hi | hf
  · rw [hn] at hn'
    cases hn'
  · rw [infWord_of_isInf hi, flt_infWord_left hb, hs] at h
    cases h
  · exact hf

/-- 0x40D5887FFFFFFFFF is below half of 44100. -/
theorem admitted_below_nyquist {q : Word} (hpos : flt 0x0000000000000000 q = true)
    (hfin : isFinite q = true) : OperandsAdmitted 0x40D5887FFFFFFFFF q 0x40E5888000000000 :=
  ⟨by decide +kernel, by decide, by decide +kernel, by decide +kernel, hpos, hfin⟩

/-- Settles O36: the frequency boundaries are failures of the third check, and admission is
`OperandsAdmitted` (`admits_iff`), which checks q apart from f. -/
theorem operandCheckBoundaries : Obligations.OperandCheckBoundaries := by
  intro i s hi
  have hrange := frequencyOutOfRangeFails i s hi
  refine ⟨fun hpos hfin hf => hrange hpos hfin fun h => ?_, fun hf hfs hq hqfin => ?_,
    fun hpos hfin hf => hrange hpos hfin fun h => ?_, ⟨by decide +kernel, fun hfs => ?_⟩, fun hnan => ?_,
    fun f q q' h hq hqfin => ?_, fun f q f' q' h h' => ?_⟩
  · rw [← hf, flt_irrefl] at h
    exact Bool.false_ne_true h.2
  · have hadm : OperandsAdmitted s.freq s.q s.fs := by
      rw [hf, hfs]
      exact admitted_below_nyquist hq hqfin
    exact ⟨hadm, (admits_iff hi s).2 hadm⟩
  · obtain ⟨hz, hs, -⟩ := zero_lt_true h.1
    simp [hz, hs, isFinite_of_between (half_finite hfin) h.1 h.2] at hf
  · have hhalf : fdiv s.fs 0x4000000000000000 = 0x0000000000000000 := by
      rw [hfs]
      decide +kernel
    refine hrange (by rw [hfs]; decide) (by rw [hfs]; decide) fun h => ?_
    rw [hhalf, flt_asymm h.1] at h
    exact Bool.false_ne_true h.2
  · exact (sampleRateNotPositiveFails i s hi).2 ((zero_lt_false _).2 (.inr (.inr hnan)))
  · obtain ⟨hpos, hfin, hf, hny, -, -⟩ := (admits_iff hi _).1 h
    exact (admits_iff hi _).2 ⟨hpos, hfin, hf, hny, hq, hqfin⟩
  · obtain ⟨hpos, hfin, hf, hny, -, -⟩ := (admits_iff hi _).1 h
    obtain ⟨-, -, -, -, hq, hqfin⟩ := (admits_iff hi _).1 h'
    exact (admits_iff hi _).2 ⟨hpos, hfin, hf, hny, hq, hqfin⟩

end Sys2Proof.Machine
end

section
/-! Proofs about DESIGN.PK (41_peaking.md): what a success commits (O30), the unity filter at zero gain
(O31), the amplitudes that always fail (O32), and the sign of the raw b1 (O52). -/

namespace Sys2Proof.Machine

/-! ### Products and quotients by sign, by a zero and by what is not finite (R99) -/

/-- Negation flips the sign of a rounded result and nothing else. -/
theorem fneg_pack_roundMag (s : Bool) (n d : Nat) :
    fneg (pack s (roundMag n d)) = pack (!s) (roundMag n d) := by
  rw [fneg, signOf_pack_roundMag, magOf_pack_roundMag]

/-- A sign moves out of a product of finite factors. -/
theorem fmul_fneg_left {a b : Word} (ha : isFinite a = true) (hb : isFinite b = true) :
    fmul (fneg a) b = fneg (fmul a b) := by
  rw [fmul_finite ((isFinite_fneg a).trans ha) hb, fmul_finite ha hb, fneg_pack_roundMag, signOf_fneg,
    magOf_fneg, Bool.not_xor]

/-- Settles O52: -2 is the negation of 2, and twice an infinity is that infinity. -/
theorem minusTwiceIsTimesMinusTwo : Obligations.MinusTwiceIsTimesMinusTwo := by
  intro c hc
  have htwo : (0xC000000000000000 : Word) = fneg 0x4000000000000000 := by decide
  rcases class_cases c with hn | hi | hf
  · rw [hc] at hn
    cases hn
  · rw [infWord_of_isInf hi]
    cases signOf c <;> decide +kernel
  · rw [htwo, fmul_fneg_left (by decide) hf]

theorem fmul_comm (a b : Word) : fmul a b = fmul b a := by
  unfold fmul
  cases f64 a <;> cases f64 b <;> simp only [Bool.xor_comm, Nat.mul_comm]

/-- Over a zero nothing has a finite quotient. -/
theorem fdiv_zero_not_finite {a b : Word} (hb : isZero b = true) : isFinite (fdiv a b) = false := by
  cases ha : isFinite a with
  | false => exact fdiv_not_finite ha
  | true =>
    cases h0 : isZero a with
    | true => rw [fdiv_zero_zero h0 hb, not_finite_of_isNaN isNaN_nanWord]
    | false =>
      rw [zeroWord_of_isZero hb, fdiv_by_zero _ ha h0]
      exact not_finite_of_isInf (isInf_infWord _)

/-- A product and a quotient by 1 are the same word, that of a NaN included. -/
theorem fmul_one_eq_fdiv_one (a : Word) : fmul a oneWord = fdiv a oneWord := by
  cases hn : isNaN a with
  | false => rw [fmul_one a hn, fdiv_one a hn]
  | true => rw [fmul_nan (.inl hn), fdiv_nan (.inl hn)]

/-- A word has a finite quotient by itself only where that is 1. -/
theorem fdiv_self_of_finite {a : Word} (h : isFinite (fdiv a a) = true) : fdiv a a = oneWord := by
  cases hf : isFinite a with
  | false => rw [fdiv_not_finite hf] at h; cases h
  | true =>
    cases h0 : isZero a with
    | false => exact fdiv_self hf h0
    | true => rw [fdiv_zero_not_finite h0] at h; cases h

/-! ### A successful DESIGN.PK (R95) -/

theorem Coeffs.allFinite_iff {c : Coeffs} : c.allFinite = true ↔
    isFinite c.b0 = true ∧ isFinite c.b1 = true ∧ isFinite c.b2 = true ∧ isFinite c.a1 = true ∧
      isFinite c.a2 = true := by
  simp only [Coeffs.allFinite, Bool.and_eq_true, and_assoc]

/-- Only a commit leaves 0x100 in STATUS. -/
theorem exists_commit_of_status {s : State} {k : Completion}
    (h : (s.complete k).status = 0x0000000000000100) : ∃ c, k = .commit c := by
  cases k with
  | commit c => exact ⟨c, rfl⟩
  | fail e =>
    change statusWord false e (causeCode e) = _ at h
    cases e <;> exact absurd h (by decide)

/-- A DESIGN.PK that succeeds commits the coefficients of the operand registers, which are finite. -/
theorem designPk_succeeded {s t : State} (h : exec .designPk s = .next t)
    (hst : t.status = 0x0000000000000100) :
    s.peakingCoeffs.allFinite = true ∧ t = s.succeeded s.peakingCoeffs := by
  change Host.Outcome.next (s.complete (peakingDesign openMath s.gainDb s.freq s.q s.fs)) = _ at h
  cases h
  obtain ⟨c, hc⟩ := exists_commit_of_status hst
  obtain ⟨-, hcoeffs, hfin⟩ := designWith_commit hc
  rw [normalise_rawPk] at hcoeffs
  subst hcoeffs
  exact ⟨hfin, by rw [hc]; rfl⟩

/-- Settles O30: both are the one quotient -(2 × c) / a0. -/
theorem peakingB1EqualsA1 : Obligations.PeakingB1EqualsA1 := by
  intro s t h hst
  obtain ⟨-, rfl⟩ := designPk_succeeded h hst
  rfl

/-! ### Zero gain (R114) -/

/-- A gain of ±0 has amplitude 1. -/
theorem amplitude_of_isZero {g : Word} (h : isZero g = true) : amplitude openMath g = oneWord :=
  pow10Of_zero _ (isZero_fdiv h (by decide) (by decide))

/-- With amplitude 1, alpha × A and alpha / A are the same word, so each b is its a before
normalisation. -/
theorem rawPk_one (c alpha : Word) : (rawPk oneWord c alpha).b0 = (rawPk oneWord c alpha).a0 ∧
    (rawPk oneWord c alpha).b2 = (rawPk oneWord c alpha).a2 := by
  simp only [rawPk, fmul_one_eq_fdiv_one, and_self]

/-- Where the raw b0 and b2 are a0 and a2 and the normalised ones are finite, the filter is unity. -/
theorem normalise_unity {r : RawCoeffs} (h : r.b0 = r.a0 ∧ r.b2 = r.a2)
    (hfin : (normalise r).allFinite = true) :
    (normalise r).b0 = oneWord ∧ (normalise r).b2 = (normalise r).a2 := by
  obtain ⟨hb0, -⟩ := Coeffs.allFinite_iff.1 hfin
  obtain ⟨h0, h2⟩ := h
  have hquot : (normalise r).b0 = fdiv r.a0 r.a0 := congrArg (fdiv · r.a0) h0
  rw [hquot] at hb0 ⊢
  exact ⟨fdiv_self_of_finite hb0, congrArg (fdiv · r.a0) h2⟩

/-- Settles O31: a zero gain has amplitude 1. -/
theorem peakingAtZeroGainIsUnity : Obligations.PeakingAtZeroGainIsUnity := by
  intro s t hg h hst
  have hzero : isZero s.gainDb = true := by rcases hg with hg | hg <;> rw [hg] <;> decide
  obtain ⟨hfin, rfl⟩ := designPk_succeeded h hst
  rw [← normalise_rawPk, amplitude_of_isZero hzero] at hfin ⊢
  obtain ⟨hb0, hb2⟩ := normalise_unity (rawPk_one _ _) hfin
  exact ⟨hb0, rfl, hb2⟩

/-! ### Extreme amplitudes (R115) -/

/-- An amplitude that is not finite makes B0 not finite, and one that is a zero makes A2 a NaN. -/
theorem normalise_rawPk_extreme {A : Word} (c alpha : Word)
    (hA : isFinite A = false ∨ isZero A = true) :
    (normalise (rawPk A c alpha)).allFinite = false := by
  refine Bool.eq_false_iff.2 fun h => ?_
  obtain ⟨hb0, -, -, -, ha2⟩ := Coeffs.allFinite_iff.1 h
  simp only [normalise, rawPk] at hb0 ha2
  rcases hA with hA | hA
  · have haA : isFinite (fmul alpha A) = false := by rw [fmul_comm, fmul_not_finite hA]
    rw [fdiv_not_finite (one_add_not_finite haA)] at hb0
    cases hb0
  · have haoA : isFinite (fdiv alpha A) = false := fdiv_zero_not_finite hA
    rw [fdiv_not_finite (one_sub_not_finite haoA)] at ha2
    cases ha2

/-- A gain that is not finite has an amplitude that is not finite, or zero. -/
theorem amplitude_of_not_finite {g : Word} (h : isFinite g = false) :
    isFinite (amplitude openMath g) = false ∨ isZero (amplitude openMath g) = true := by
  rcases isNaN_or_isInf_of_not_finite h with hn | hi
  · have hquot : isNaN (fdiv g fortyWord) = true := by rw [fdiv_nan (.inl hn), isNaN_nanWord]
    exact .inl (not_finite_of_isNaN (openFunctionsHaveTheRequiredProperties.pow_nan _ hquot))
  · rw [infWord_of_isInf hi]
    cases signOf g with
    | false => exact .inl (by decide)
    | true => exact .inr (by decide)

/-- On admitted operands an extreme amplitude fails DESIGN.PK. -/
theorem designPk_extreme {s : State} (hadm : OperandsAdmitted s.freq s.q s.fs)
    (hA : isFinite (amplitude openMath s.gainDb) = false ∨
      isZero (amplitude openMath s.gainDb) = true) :
    exec .designPk s = .next (s.failedWith 0x0000000000000081) := by
  have hfin := normalise_rawPk_extreme (openMath.fcos (angle s.freq s.fs))
    (alphaOf (openMath.fsin (angle s.freq s.fs)) s.q) hA
  rw [normalise_rawPk] at hfin
  rw [execDesignPk_admitted hadm, complete_checked_not_finite s hfin]

/-- Settles O32: each of the amplitudes is a zero or not finite. -/
theorem extremeAmplitudeFailsPeaking : Obligations.ExtremeAmplitudeFailsPeaking := by
  intro s hadm
  refine ⟨fun hA => designPk_extreme hadm ?_, fun hg => designPk_extreme hadm (amplitude_of_not_finite hg)⟩
  rw [amplitude, fortyWord]
  rcases hA with hn | hi | h0
  · exact .inl (not_finite_of_isNaN hn)
  · exact .inl (by rw [hi]; decide)
  · exact .inr (by rw [h0]; decide)

end Sys2Proof.Machine
end

section
/-! Proofs about DESIGN.LP (42_low_pass.md): what a success commits (O17, O29), B0 as half of B1 (O33),
and R124: success on a finite alpha that is not negative (O34), and the failure of both designs on a w0
or an alpha that is not finite (O55). -/

namespace Sys2Proof.Machine

/-- Settles O17: the checks pass and the coefficients are finite, so DESIGN.LP commits them. -/
theorem lowPassDesignCompletes : Obligations.LowPassDesignCompletes := by
  intro s hadm hfin
  rw [execDesignLp_admitted hadm, complete_checked_finite s hfin]

/-- DESIGN.LP completes with the low-pass design of the three operands (R120). -/
theorem execDesignLp_complete (s : State) :
    exec .designLp s = .next (s.complete (lowPassDesign openMath s.freq s.q s.fs)) := rfl

/-- DESIGN.PK completes with the peaking design of the four operands (R110). -/
theorem execDesignPk_complete (s : State) :
    exec .designPk s = .next (s.complete (peakingDesign openMath s.gainDb s.freq s.q s.fs)) := rfl

/-- Settles O29: the design has no gain among its arguments, so both commands complete alike. -/
theorem lowPassIgnoresTheGain : Obligations.LowPassIgnoresTheGain := by
  intro s s' hf hq hfs
  refine ⟨_, _, execDesignLp_complete s, execDesignLp_complete s', ?_⟩
  rw [hf, hq, hfs]
  exact complete_status_results s s' _

/-! ### A w0 or an alpha that is not finite (R124) -/

/-- 1 + alpha × A is the numerator of B0. -/
theorem normalise_rawPk_not_finite (A c : Word) {alpha : Word} (h : isFinite alpha = false) :
    (normalise (rawPk A c alpha)).allFinite = false := by
  refine Bool.eq_false_iff.2 fun hfin => ?_
  have hquot : isFinite (normalise (rawPk A c alpha)).b0 = false :=
    fdiv_not_finite (one_add_not_finite (fmul_not_finite h))
  obtain ⟨hb0, -⟩ := Coeffs.allFinite_iff.1 hfin
  rw [hquot] at hb0
  cases hb0

/-- 1 - alpha is the numerator of A2. -/
theorem normalise_rawLp_not_finite (c : Word) {alpha : Word} (h : isFinite alpha = false) :
    (normalise (rawLp c alpha)).allFinite = false := by
  refine Bool.eq_false_iff.2 fun hfin => ?_
  have hquot : isFinite (normalise (rawLp c alpha)).a2 = false := fdiv_not_finite (one_sub_not_finite h)
  obtain ⟨-, -, -, -, ha2⟩ := Coeffs.allFinite_iff.1 hfin
  rw [hquot] at ha2
  cases ha2

/-- On admitted operands a design whose coefficients are not all finite fails the result check (R94). -/
theorem designWith_resultNotFinite {M : MathLib} {raw : Word → Word → RawCoeffs} {f q fs : Word}
    (hadm : OperandsAdmitted f q fs)
    (h : (normalise (raw (M.fsin (angle f fs)) (M.fcos (angle f fs)))).allFinite = false) :
    designWith M raw f q fs = .fail .resultNotFinite := by
  rw [designWith, validate_of_admitted hadm]
  exact if_neg (Bool.eq_false_iff.1 h)

/-- An alpha that is not finite fails both designs, whatever the open functions. -/
theorem designs_resultNotFinite (M : MathLib) (g : Word) {f q fs : Word} (hadm : OperandsAdmitted f q fs)
    (h : isFinite (alphaOf (M.fsin (angle f fs)) q) = false) :
    peakingDesign M g f q fs = .fail .resultNotFinite ∧
      lowPassDesign M f q fs = .fail .resultNotFinite :=
  ⟨designWith_resultNotFinite hadm (normalise_rawPk_not_finite _ _ h),
    designWith_resultNotFinite hadm (normalise_rawLp_not_finite _ h)⟩

/-- The sine of a w0 that is not finite is a NaN, and so is alpha (R92, R100). -/
theorem alphaOf_fsin_not_finite {w : Word} (q : Word) (h : isFinite w = false) :
    isFinite (alphaOf (openMath.fsin w) q) = false :=
  fdiv_not_finite (not_finite_of_isNaN (openFunctionsHaveTheRequiredProperties.sin_nan w h))

/-- Settles O55: a w0 that is not finite gives an alpha that is not finite. -/
theorem nonFiniteAngleOrAlphaFails : Obligations.NonFiniteAngleOrAlphaFails := by
  refine ⟨fun i s hi hadm h => ?_, fun M g f q fs => designs_resultNotFinite M g⟩
  have halpha : isFinite (alphaOf (openMath.fsin (angle s.freq s.fs)) s.q) = false :=
    h.elim (alphaOf_fsin_not_finite s.q) id
  obtain ⟨hpk, hlp⟩ := designs_resultNotFinite openMath s.gainDb hadm halpha
  rcases hi with rfl | rfl
  · rw [execDesignPk_complete, hpk]
    rfl
  · rw [execDesignLp_complete, hlp]
    rfl

/-! ### A finite alpha that is not negative (R124) -/

/-- 1 minus a finite value is finite. -/
theorem one_sub_finite {x : Word} (h : isFinite x = true) : isFinite (fsub oneWord x) = true :=
  one_add_finite ((isFinite_fneg x).trans h)

/-- With a cosine of [-1, 1] every raw coefficient is finite, and with an alpha that is not negative the
divisor 1 + alpha is at least 1. -/
theorem allFinite_normalise_rawLp {c alpha : Word} (hc : inUnit c = true) (hfin : isFinite alpha = true)
    (hneg : flt alpha 0x0000000000000000 = false) : (normalise (rawLp c alpha)).allFinite = true := by
  obtain ⟨homc, -⟩ := one_sub_unit hc
  have hquot : ∀ {x : Word}, isFinite x = true → isFinite (fdiv x (fadd oneWord alpha)) = true :=
    fun hx => fdiv_ge_one hx (one_add_finite hfin) (one_add_ge hfin hneg)
  exact Coeffs.allFinite_iff.2 ⟨hquot (half_finite homc), hquot homc, hquot (half_finite homc),
    hquot (minusTwice_unit hc), hquot (one_sub_finite hfin)⟩

/-- Settles O34: the cosine of a finite w0 lies in [-1, 1], so the coefficients are finite. -/
theorem lowPassSucceedsOnFiniteAlpha : Obligations.LowPassSucceedsOnFiniteAlpha := by
  intro s hadm hw0 hfin hneg
  refine lowPassDesignCompletes s hadm ?_
  rw [← normalise_rawLp]
  exact allFinite_normalise_rawLp (openFunctionsHaveTheRequiredProperties.cos_unit _ hw0) hfin hneg

/-! ### B0 is half of B1 (R123) -/

/-- A finite value over an infinity is a zero. -/
theorem isZero_fdiv_inf {a b : Word} (ha : isFinite a = true) (hb : isInf b = true) :
    isZero (fdiv a b) = true := by
  unfold fdiv
  rw [f64_of_finite ha, f64_of_inf hb]
  exact isZero_zeroWord _

/-- Halving the dividend halves the quotient, where both are zero or at least 2^-1021. -/
theorem valueOf_fdiv_half {a b : Word} (ha : isFinite a = true) (hfin : isFinite (fdiv a b) = true)
    (hnorm : 0x0020000000000000 ≤ magOf a ∨ magOf a = 0)
    (hquot : 0x0020000000000000 ≤ magOf (fdiv a b) ∨ magOf (fdiv a b) = 0) :
    2 * valueOf (fdiv (fdiv a 0x4000000000000000) b) = valueOf (fdiv a b) := by
  obtain ⟨hsign, hhalf, hmag⟩ := half_exact ha hnorm
  rcases class_cases b with hb | hb | hb
  · rw [fdiv_nan (.inr hb), not_finite_of_isNaN isNaN_nanWord] at hfin
    cases hfin
  · rw [valueOf_eq_zero_iff.2 (isZero_fdiv_inf ha hb), valueOf_eq_zero_iff.2 (isZero_fdiv_inf hhalf hb),
      mul_zero]
  · cases h0 : isZero b with
    | true =>
      rw [fdiv_zero_not_finite h0] at hfin
      cases hfin
    | false =>
      have hpos : 0 < magValue (magOf b) := by
        rw [Nat.pos_iff_ne_zero, Ne, magValue_eq_zero, ← isZero_iff, h0]
        decide
      rw [fdiv_finite ha hb h0] at hfin hquot ⊢
      rw [magOf_pack_roundMag] at hquot
      have hround := magValue_roundMag_half _ hpos ((isFinite_pack ..).1 hfin) hquot
      rw [fdiv_finite hhalf hb h0, hsign]
      refine (valueOf_eq_two_mul ?_ ?_).symm
      · rw [signOf_pack_roundMag, signOf_pack_roundMag]
      · rw [magOf_pack_roundMag, magOf_pack_roundMag, ← hround, ← hmag, mul_assoc,
          roundMag_mul two_pos]

/-- In a low-pass design that commits, B0 and B2 are one quotient, and where 1 - c is halved exactly so
is B1. -/
theorem lowPassDesign_half {M : MathLib} {f q fs : Word} {c : Coeffs}
    (hc : inUnit (M.fcos (angle f fs)) = true) (h : lowPassDesign M f q fs = .commit c) :
    c.b0 = c.b2 ∧
    (0x0020000000000000 ≤ magOf c.b1 ∨ c.b1 = 0x0000000000000000 →
      2 * valueOf c.b0 = valueOf c.b1) := by
  obtain ⟨-, rfl, hfin⟩ := designWith_commit h
  obtain ⟨-, hb1, -⟩ := Coeffs.allFinite_iff.1 hfin
  obtain ⟨homc, hnorm⟩ := one_sub_unit hc
  refine ⟨rfl, fun hquot => valueOf_fdiv_half homc hb1 hnorm (hquot.imp_right fun h0 => ?_)⟩
  exact (congrArg magOf h0).trans (by decide)

/-- A low-pass design of the machine that commits had a finite w0, so its cosine lies in [-1, 1]. -/
theorem inUnit_fcos_of_commit {f q fs : Word} {c : Coeffs}
    (h : lowPassDesign openMath f q fs = .commit c) : inUnit (openMath.fcos (angle f fs)) = true := by
  cases hw0 : isFinite (angle f fs) with
  | true => exact openFunctionsHaveTheRequiredProperties.cos_unit _ hw0
  | false =>
    obtain ⟨-, hcoeffs, hfin⟩ := designWith_commit h
    rw [hcoeffs, normalise_rawLp_not_finite _ (alphaOf_fsin_not_finite q hw0)] at hfin
    cases hfin

/-- A DESIGN.LP that succeeds commits the results it leaves. -/
theorem designLp_succeeded {s t : State} (h : exec .designLp s = .next t)
    (hst : t.status = 0x0000000000000100) :
    lowPassDesign openMath s.freq s.q s.fs = .commit t.results := by
  rw [execDesignLp_complete] at h
  cases h
  obtain ⟨c, hc⟩ := exists_commit_of_status hst
  rw [hc]
  rfl

/-- Settles O33: `lowPassDesign_half`, for the machine's choice as for any other. -/
theorem lowPassB0IsHalfOfB1 : Obligations.LowPassB0IsHalfOfB1 := by
  refine ⟨fun s t h hst => ?_, fun M f q fs c => lowPassDesign_half⟩
  have hcommit := designLp_succeeded h hst
  exact lowPassDesign_half (inUnit_fcos_of_commit hcommit) hcommit

end Sys2Proof.Machine
end

section
/-! Proofs about the order of the checks (R143, O24) and about a platform of several instances (R152,
O44). -/

namespace Sys2Proof.Machine

/-! ### The first failing check (R143) -/

/-- The STATUS word of a legal command whose coefficients are c: that of the first operand check that
fails (`validate`), and after these that of the result check. -/
theorem status_of_first_failing_check (s : State) (c : Coeffs) :
    (s.complete (match validate s.freq s.q s.fs with | some e => .fail e | none => checked c)).status =
      if flt 0x0000000000000000 s.fs = false then 0x0000000000000032
      else if isFinite s.fs = false then 0x0000000000000042
      else if flt 0x0000000000000000 s.freq = false ∨ flt s.freq (fdiv s.fs 0x4000000000000000) = false then
        0x0000000000000051
      else if flt 0x0000000000000000 s.q = false then 0x0000000000000061
      else if isFinite s.q = false then 0x0000000000000071
      else if c.allFinite = false then 0x0000000000000081
      else 0x0000000000000100 := by
  split_ifs with hpos hfin hrange hq hqfin hres
  · rw [validate_fsNotPositive hpos]
    rfl
  all_goals rw [Bool.not_eq_false] at hpos
  · rw [validate_fsNotFinite hpos hfin]
    rfl
  all_goals rw [Bool.not_eq_false] at hfin
  · rw [← Bool.and_eq_false_iff, ← Bool.not_eq_true, Bool.and_eq_true_iff] at hrange
    rw [validate_freqOutOfRange hpos hfin hrange]
    rfl
  all_goals
    simp only [not_or, Bool.not_eq_false] at hrange
    obtain ⟨hf, hny⟩ := hrange
  · rw [validate_qNotPositive hpos hfin hf hny hq]
    rfl
  all_goals rw [Bool.not_eq_false] at hq
  · rw [validate_qNotFinite hpos hfin hf hny hq hqfin]
    rfl
  all_goals
    rw [Bool.not_eq_false] at hqfin
    rw [validate_of_admitted ⟨hpos, hfin, hf, hny, hq, hqfin⟩]
  · exact congrArg State.status (complete_checked_not_finite s hres)
  · rw [Bool.not_eq_false] at hres
    exact congrArg State.status (complete_checked_finite s hres)

/-- Settles O24: an illegal word fails before every operand check, and a legal one leaves the word of the
first check that fails. -/
theorem firstFailingCheckDecidesTheStatus : Obligations.FirstFailingCheckDecidesTheStatus := by
  intro v s
  by_cases hill : 2 ≤ v.toNat
  · refine ⟨_, execCmd_illegal hill, ?_⟩
    rw [if_pos hill]
    rfl
  · refine ⟨_, execCmd_legal (by omega), ?_⟩
    have hlow : ¬4 ≤ v.toNat := by omega
    rw [if_neg hlow, if_neg hill]
    exact status_of_first_failing_check s _

/-! ### A step of one instance (R152) -/

/-- A platform step that has a successor is a step of the instance at k, or there is no such instance and
nothing changes. -/
theorem platformStep_next_cases {k : Nat} {p p' : List State} (h : platformStep k p = .next p') :
    (p[k]? = none ∧ p' = p) ∨ ∃ s t, p[k]? = some s ∧ step s = .next t ∧ p' = p.set k t := by
  unfold platformStep at h
  cases hk : p[k]? with
  | none =>
    rw [hk] at h
    cases h
    exact .inl ⟨rfl, rfl⟩
  | some s =>
    simp only [hk] at h
    cases hs : step s with
    | next t =>
      rw [hs] at h
      cases h
      exact .inr ⟨s, t, rfl, hs, rfl⟩
    | fault | refused =>
      rw [hs] at h
      cases h

/-- Settles O44: the step replaces at most the state at k. -/
theorem instancesShareNothing : Obligations.InstancesShareNothing := by
  intro k p p' h
  obtain ⟨-, rfl⟩ | ⟨s, t, -, -, rfl⟩ := platformStep_next_cases h
  · exact ⟨rfl, fun _ _ => rfl⟩
  · exact ⟨List.length_set, fun j hj => List.getElem?_set_ne (Ne.symm hj)⟩

end Sys2Proof.Machine
end

section
/-! Proofs about reset and the command after it (70_reset_and_hazards.md): O38. -/

namespace Sys2Proof.Machine

/-- R35: the reset state holds +0.0 in every result register, so a failure there changes STATUS only. -/
theorem failedWith_reset (w : Word) : State.reset.failedWith w = { State.reset with status := w } := rfl

/-- Settles O38: O18 in the reset state, whose FS is 0 and so not greater than 0. -/
theorem firstCommandAfterResetFails : Obligations.FirstCommandAfterResetFails := by
  intro i hi
  have hfs : flt 0x0000000000000000 State.reset.fs = false := flt_irrefl 0x0000000000000000
  obtain ⟨-, hfails⟩ := sampleRateNotPositiveFails i State.reset hi
  rw [hfails hfs, failedWith_reset]

end Sys2Proof.Machine
end
